-- ==== Sys2Proof/Word.lean ====
section
/-! DEFINITION. The element types of the block's storage (spec/00_scope.md R13): the unsigned byte, the
unsigned 16-bit vector entry, and the RGB triple of spec/30_encoding.md R105. -/

namespace Sys2Proof

/-- An unsigned 8-bit value 0..255 (R13). -/
abbrev Byte := BitVec 8

/-- An unsigned 16-bit value 0..65535 (R13). -/
abbrev Word16 := BitVec 16

/-- An element of the `RGB` buffer: a tuple of bytes in the order R, G, B, not a packed word (R65, R105). -/
structure Rgb where
  r : Byte
  g : Byte
  b : Byte
deriving DecidableEq, Repr

end Sys2Proof
end

