-- ==== Sys2Proof/Config.lean ====
section
/-! DEFINITION. What an implementation fixes: the reset values of the nine configuration registers
(spec/00_scope.md R9, R11; spec/10_state.md R30), the constants that are not registers (R12), and the bounds of the
legal register values (spec/10_state.md R31). The two chroma range constants are open parameters: no body. -/

namespace Sys2Proof.Config

/-- The open parameter `RANGE_RY` less one (R11, D13). It has no body, so no proof can see it; its type says the
only thing the spec says: `RANGE_RY` is one of 1..255. Log 1. -/
opaque rangeRYPred : Fin 255

/-- The open parameter `RANGE_BY` less one (R11, D13), with no body. Log 1. -/
opaque rangeBYPred : Fin 255

/-- `RANGE_RY`, the reset value of `C_RANGE_RY`: any value in 1..255 (R11, R31). -/
def rangeRY : Byte := BitVec.ofNatLT (rangeRYPred.val + 1) (by have := rangeRYPred.isLt; omega)

/-- `RANGE_BY`, the reset value of `C_RANGE_BY`: any value in 1..255 (R11, R31). -/
def rangeBY : Byte := BitVec.ofNatLT (rangeBYPred.val + 1) (by have := rangeBYPred.isLt; omega)

/-- `backSpriteLength` (R9). -/
def backSpriteLength : Word16 := 64#16
/-- `rasterLength` (R9). -/
def rasterLength : Word16 := 120#16
/-- `frontSpriteLength` (R9). -/
def frontSpriteLength : Word16 := 32#16
/-- `numLines` (R9). -/
def numLines : Word16 := 313#16
/-- `low`, the lower end of the calibrated luma window (R9). -/
def low : Byte := 41#8
/-- `high`, the upper end of the calibrated luma window (R9). -/
def high : Byte := 181#8
/-- `headroom` (R9). -/
def headroom : Byte := 32#8

/-- The luma full-scale value and the upper end of the display range (R12). -/
def fullScale : Nat := 255
/-- The chroma neutral code (R12). -/
def neutral : Nat := 128

/-- The greatest legal value of the three segment lengths and of `NUM_LINES` (R31). -/
def maxGeometry : Nat := 4095
/-- The greatest legal value of `C_HEADROOM` (R31). -/
def maxHeadroom : Nat := 128

end Sys2Proof.Config
end

