-- ==== Sys2Proof/Machine/Transaction.lean ====
section
/-! DEFINITION. The selectors of the block (spec/00_scope.md R17) and the host transactions of spec/20_memory.md
R74 to R79 as data: what a host can ask, and what it gets back. -/

namespace Sys2Proof.Machine

/-- The three channel groups `Y`, `RY` (R−Y), `BY` (B−Y) (R17). -/
inductive Group where
  | y
  | ry
  | bY
deriving DecidableEq, Repr

/-- `channelsPerGroup` (R17, R99): 4, 2, 2. -/
def cpg : Group → Nat
  | .y => 4
  | .ry => 2
  | .bY => 2

/-- The selector code of a group, also the `GROUP` field of the fault record (R99, R205). -/
def groupCode : Group → BitVec 4
  | .y => 0#4
  | .ry => 1#4
  | .bY => 2#4

/-- The three compositor inputs; `CB` derives from group `BY`, `CR` from group `RY` (R17). -/
inductive AlnSel where
  | y
  | cb
  | cr
deriving DecidableEq, Repr

/-- The group that a compositor input derives from: `CB` from `BY`, `CR` from `RY` (R17). -/
def alignedSource : AlnSel → Group
  | .y => .y
  | .cb => .bY
  | .cr => .ry

/-- The buffers a host may read with `HostReadPlane` (R79). -/
inductive ReadSel where
  | raw (g : Group)
  | nrm (g : Group)
  | rgb
deriving DecidableEq, Repr

/-- A host transaction (R74 to R79, R240). A command issue is a register write to `CMD` (R32): `commandIssue`. -/
inductive Transaction where
  /-- `Reset`, in any state (R240). -/
  | reset
  /-- Write value `v` to register number `n`; a write to CR16 is a command issue (R30, R32, R33). -/
  | writeReg (n v : Nat)
  /-- Read register number `n` (R30, R32, R33). -/
  | readReg (n : Nat)
  /-- `HostLoadVseq(entries)` (R76). -/
  | loadVseq (entries : List Word16)
  /-- `HostLoadRom(g, chans)` (R77). -/
  | loadRom (g : Group) (chans : List (List Byte))
  /-- `HostLoadRaw(g, W, H, data)` (R78). -/
  | loadRaw (g : Group) (w h : Nat) (data : List Byte)
  /-- `HostLoadAligned(k, W, H, data)` (R75). -/
  | loadAligned (k : AlnSel) (w h : Nat) (data : List Byte)
  /-- `HostReadPlane(B)` (R79). -/
  | readPlane (b : ReadSel)
deriving DecidableEq, Repr

/-- The number of register `CMD` (R32). -/
def cmdNumber : Nat := 16

/-- The number of register `STATUS` (R32). -/
def statusNumber : Nat := 17

/-- The command issue: the write of word `w` to `CMD` (R32, R74). -/
def commandIssue (w : Byte) : Transaction := .writeReg cmdNumber w.toNat

/-- The width of the register a write may store to, for the registers that a host writes: CR0 to CR8 and `CMD`
(R30, R32); a write to any other number has no effect, whatever the value (R32, R33). -/
def writeWidth (n : Nat) : Option Nat :=
  if n < 4 then some 16 else if n < 9 then some 8 else if n = cmdNumber then some 8 else none

/-- What a host gets back from a read transaction (R79, R84). -/
inductive Reply where
  /-- The value of register `n`. -/
  | reg (n : Nat) (v : BitVec 32)
  /-- Dimensions and content of a byte plane, row-major. -/
  | plane (b : ReadSel) (w h : Nat) (data : List Byte)
  /-- Dimensions and content of the `RGB` buffer, row-major. -/
  | image (w h : Nat) (data : List Rgb)
deriving DecidableEq, Repr

end Sys2Proof.Machine
end

