-- ==== Sys2Proof/Syntax.lean ====
section
/-! DEFINITION. The eight rows of spec/opcode_table.json: seven commands of the command space (format CW8,
spec/30_encoding.md R91 to R98) and the one operation of the vector space (format V16, R100). -/

namespace Sys2Proof

/-- One constructor per row of the opcode table. A command has no operand in its word but the group its selector
names (R99), which is part of the mnemonic; a vector entry holds its 16-bit address. -/
inductive Instr where
  /-- `RENDER.Y`, word 0x10 (R92, R133). -/
  | renderY
  /-- `RENDER.RY`, word 0x11 (R93, R134). -/
  | renderRY
  /-- `RENDER.BY`, word 0x12 (R94, R135). -/
  | renderBY
  /-- `NORM.Y`, word 0x20 (R95, R164). -/
  | normY
  /-- `NORM.RY`, word 0x21 (R96, R165). -/
  | normRY
  /-- `NORM.BY`, word 0x22 (R97, R166). -/
  | normBY
  /-- `COMPOSE`, word 0x30 (R98, R187). -/
  | compose
  /-- `VFETCH a`, a word of the vector space (R100, R125). -/
  | vfetch (a : Word16)
deriving DecidableEq, Repr

end Sys2Proof
end

