-- ==== Sys2Proof/Machine/State.lean ====
section
/-! DEFINITION. The state of the block as plain data: everything spec/10_state.md gives it (R20 to R40), with the
host's mailboxes, and its value right after reset. -/

namespace Sys2Proof.Machine

/-- One address space (spec/20_memory.md R60): pairs of element index and element. An index that is not listed holds
NO VALUE (R64). A byte space is a list of `Host.Cell`. -/
abbrev Memory (α : Type) := List (Nat × α)

/-- The canonical form of a memory: element indices strictly rising (an unlisted index holds no value, and no value
can be listed, so equal memories are equal lists). -/
abbrev Memory.wf {α : Type} (m : Memory α) : Prop := (m.map Prod.fst).Pairwise (· < ·)

/-- One of something for each channel group (R17). -/
structure PerGroup (α : Type) where
  y : α
  ry : α
  bY : α
deriving DecidableEq, Repr

/-- One of something for each compositor input (R17). -/
structure PerAln (α : Type) where
  y : α
  cb : α
  cr : α
deriving DecidableEq, Repr

/-- A plane buffer with its valid bit and its dimension register (R25, R33, R35). -/
structure Buffer (α : Type) where
  valid : Bool
  /-- `DIM_*`: `[31:16]` width, `[15:0]` height (R33). -/
  dim : BitVec 32
  mem : Memory α
deriving DecidableEq, Repr

/-- A plane buffer that holds no value (R25, R33, R64). -/
def Buffer.empty {α : Type} : Buffer α := { valid := false, dim := 0#32, mem := [] }

/-- The vector sequence store with `VSEQV` and `VSEQ_LEN` (R25, R33, R34). -/
structure VseqStore where
  valid : Bool
  len : BitVec 32
  mem : Memory Word16
deriving DecidableEq, Repr

/-- The ROM channel stores of one group with `ROMV_g` and `ROM_LEN_g`, channel 0 first (R25, R33, R34). -/
structure RomBank where
  valid : Bool
  len : BitVec 32
  chans : List (Memory Byte)
deriving DecidableEq, Repr

/-- The nine configuration registers CR0 to CR8 (R30). -/
structure ConfigRegs where
  backLen : BitVec 16
  rasterLen : BitVec 16
  frontLen : BitVec 16
  numLines : BitVec 16
  yLow : BitVec 8
  yHigh : BitVec 8
  cHeadroom : BitVec 8
  cRangeRY : BitVec 8
  cRangeBY : BitVec 8
deriving DecidableEq, Repr

/-- The command a BUSY block runs: unit U1 or U2 on a group, or unit U3 (R24). -/
inductive Job where
  | render (g : Group)
  | norm (g : Group)
  | compose
deriving DecidableEq, Repr

/-- `STATE` (R24). DEDUCED: while BUSY the block knows which command it runs (log 13). -/
inductive RunState where
  | idle
  | busy (j : Job)
  | fault
deriving DecidableEq, Repr

/-- The fault record (R32, R205). -/
structure FaultRecord where
  /-- `FAULT_CAUSE`: `[3:0] CAUSE`, `[7:4] SUBCAUSE`, `[11:8] STAGE`, `[15:12] GROUP`. -/
  cause : BitVec 16
  /-- `FAULT_INDEX`. -/
  index : BitVec 32
  /-- `FAULT_VALUE`. -/
  value : BitVec 32
deriving DecidableEq, Repr

/-- The working registers of unit U1 (R21, R22). `row` and `col` are computed from these. -/
structure Walk where
  /-- The current line within a field. -/
  k : Nat
  /-- The current field. -/
  f : Fin 2
  /-- The position within the line. -/
  p : Nat
  /-- The channel within the group. -/
  c : Nat
  /-- `vcur[0]`. -/
  vcur0 : Nat
  /-- `vcur[1]`. -/
  vcur1 : Nat
deriving DecidableEq, Repr

/-- The state of the block. -/
structure State where
  /-- CR0 to CR8. -/
  cfg : ConfigRegs
  /-- `STATE`. -/
  run : RunState
  /-- `REFUSED` (R26). -/
  refused : Bool
  /-- `REFUSE_REASON` (R32). -/
  refuseReason : BitVec 8
  /-- `FAULT_CAUSE`, `FAULT_INDEX`, `FAULT_VALUE`. -/
  faultRec : FaultRecord
  /-- `VSEQ`, `VSEQV`, `VSEQ_LEN`. -/
  vseq : VseqStore
  /-- `ROM[g][c]`, `ROMV_g`, `ROM_LEN_g`. -/
  rom : PerGroup RomBank
  /-- `RAW[g]`, `RAWV_g`, `DIM_RAW_g`. -/
  raw : PerGroup (Buffer Byte)
  /-- `NRM[g]`, `NRMV_g`, `DIM_NRM_g`. -/
  nrm : PerGroup (Buffer Byte)
  /-- `ALN[k]`, `ALNV_k`, `DIM_ALN_k`. -/
  aln : PerAln (Buffer Byte)
  /-- `RGB`, `RGBV`, `DIM_RGB`. -/
  rgb : Buffer Rgb
  /-- The working registers of U1. -/
  walk : Walk
  /-- The pixel index `n` of U2 (R21). -/
  normIdx : Nat
  /-- The pixel index `n` of U3 (R21). -/
  compIdx : Nat
  /-- DESIGN CHOICE, the model's own: the host transactions still to be served, oldest first (log 3). -/
  inbox : List Transaction
  /-- DESIGN CHOICE, the model's own: what the host has got back, oldest first (log 3). -/
  outbox : List Reply
deriving DecidableEq, Repr

/-- The address spaces, for naming an element (R60). -/
inductive Space where
  | vseq
  | rom (g : Group) (c : Nat)
  | raw (g : Group)
  | nrm (g : Group)
  | aln (k : AlnSel)
  | rgb
deriving DecidableEq, Repr

/-- The stops of the model that are no fault of the hardware (the hardware's three faults are next states, R206). -/
inductive Fault where
  /-- `MemRead` of an element that holds no value, for which the spec defines no read (R15, R64). Raised by the reads
  of units U1, U2 and U3. Safe: the machine stops where the spec gives no value; no state reachable from reset
  raises it (log 5). -/
  | noValue (space : Space) (element : Nat)
deriving DecidableEq, Repr

/-- What the model gives no move. -/
inductive Refusal where
  /-- An instruction without a meaning in the model. Raised by no arm now. Safe. -/
  | notModelled (mnemonic : String)
  /-- `VFETCH` while no walk stands at an entry: the spec defines it for a step of the walk alone (R125). Raised by
  `execVfetch`. Safe (log 9). -/
  | walkNotRunning
  /-- A host transaction that is not well formed: it has no move (R75, R77, D22, I13). Raised by `fetch`. Safe
  (log 6). -/
  | illFormedTransaction
deriving DecidableEq, Repr

/-- What a step of this machine answers. -/
abbrev Result := Host.Outcome State Fault Refusal

/-- A ROM bank of `n` channels that holds no value (R40). -/
def RomBank.empty (n : Nat) : RomBank := { valid := false, len := 0#32, chans := List.replicate n [] }

/-- The block right after reset (R40, R240): every register at the value the spec states, every store and plane holding
no value; the working registers (log 4) and the mailboxes (log 3) are the model's choice. -/
def State.reset : State where
  cfg :=
    { backLen := Config.backSpriteLength
      rasterLen := Config.rasterLength
      frontLen := Config.frontSpriteLength
      numLines := Config.numLines
      yLow := Config.low
      yHigh := Config.high
      cHeadroom := Config.headroom
      cRangeRY := Config.rangeRY
      cRangeBY := Config.rangeBY }
  run := .idle
  refused := false
  refuseReason := 0#8
  faultRec := { cause := 0#16, index := 0#32, value := 0#32 }
  vseq := { valid := false, len := 0#32, mem := [] }
  rom := { y := RomBank.empty 4, ry := RomBank.empty 2, bY := RomBank.empty 2 }
  raw := { y := Buffer.empty, ry := Buffer.empty, bY := Buffer.empty }
  nrm := { y := Buffer.empty, ry := Buffer.empty, bY := Buffer.empty }
  aln := { y := Buffer.empty, cb := Buffer.empty, cr := Buffer.empty }
  rgb := Buffer.empty
  walk := { k := 0, f := 0, p := 0, c := 0, vcur0 := 0, vcur1 := 0 }
  normIdx := 0
  compIdx := 0
  inbox := []
  outbox := []

end Sys2Proof.Machine
end

