-- ==== Sys2Proof/Machine/Operands.lean ====
section
/-! DEFINITION. The operand forms: what a selector selects (spec/00_scope.md R17), the geometry of a walk
(spec/40_field_walker.md R122), the working registers computed from others (spec/10_state.md R21), and the
dimension registers (R33). -/

namespace Sys2Proof.Machine

/-- What group `g` selects. -/
def PerGroup.get {α : Type} (x : PerGroup α) : Group → α
  | .y => x.y
  | .ry => x.ry
  | .bY => x.bY

/-- Replace what group `g` selects. -/
def PerGroup.set {α : Type} (x : PerGroup α) (g : Group) (v : α) : PerGroup α :=
  match g with
  | .y => { x with y := v }
  | .ry => { x with ry := v }
  | .bY => { x with bY := v }

/-- What compositor input `k` selects. -/
def PerAln.get {α : Type} (x : PerAln α) : AlnSel → α
  | .y => x.y
  | .cb => x.cb
  | .cr => x.cr

/-- Replace what compositor input `k` selects. -/
def PerAln.set {α : Type} (x : PerAln α) (k : AlnSel) (v : α) : PerAln α :=
  match k with
  | .y => { x with y := v }
  | .cb => { x with cb := v }
  | .cr => { x with cr := v }

/-- `L`, the source's `lineWidth` (R122). -/
def lineWidth (c : ConfigRegs) : Nat := c.backLen.toNat + c.rasterLen.toNat + c.frontLen.toNat

/-- `N`, the source's `numLines` (R122). -/
def lineCount (c : ConfigRegs) : Nat := c.numLines.toNat

/-- `FLEN`, the entries of a field (R122). -/
def fieldLen (c : ConfigRegs) : Nat := lineWidth c * lineCount c

/-- `VREQ`, the entries the walk needs (R122). -/
def vseqRequired (c : ConfigRegs) : Nat := 2 * fieldLen c

/-- `W`, the width in pixels of the plane that `RENDER.g` draws (R122). -/
def planeWidth (c : ConfigRegs) (g : Group) : Nat := lineWidth c * cpg g

/-- `H`, the height in rows of the plane that `RENDER.g` draws (R122). -/
def planeHeight (c : ConfigRegs) : Nat := 2 * (lineCount c - 1)

/-- The current vector cursor `vcur[f]` (R22). -/
def Walk.cursor (w : Walk) : Nat := if w.f = 0 then w.vcur0 else w.vcur1

/-- The working register `row`, always `2 * k + f` (R21). -/
def Walk.row (w : Walk) : Nat := 2 * w.k + w.f.val

/-- The working register `col`, always `p * cpg(g) + c` (R21). -/
def Walk.col (w : Walk) (g : Group) : Nat := w.p * cpg g + w.c

/-- The working registers at the start of a walk (R124). With `L = 0` there is no position to walk, and the loop over
the lines ends at once (R127, R133; log 11). -/
def walkStart (c : ConfigRegs) : Walk where
  k := if lineWidth c = 0 then lineCount c else 0
  f := 0
  p := 0
  c := 0
  vcur0 := 0
  vcur1 := fieldLen c

/-- The working registers after `VFETCH(f, k, p)`: the cursor of field `f` is one further (R22), and the loops of R127
go to the next position, then to the other field, then to the next line. -/
def Walk.advance (w : Walk) (c : ConfigRegs) : Walk :=
  let i := w.cursor
  let moved : Walk :=
    if w.f = 0 then { w with vcur0 := i + 1, c := 0 } else { w with vcur1 := i + 1, c := 0 }
  if w.p + 1 < lineWidth c then { moved with p := w.p + 1 }
  else if w.f = 0 then { moved with p := 0, f := 1 }
  else { moved with p := 0, f := 0, k := w.k + 1 }

/-- The width field of a dimension register (R33). -/
def dimWidth (d : BitVec 32) : Nat := (d.extractLsb' 16 16).toNat

/-- The height field of a dimension register (R33). -/
def dimHeight (d : BitVec 32) : Nat := (d.extractLsb' 0 16).toNat

/-- A dimension register from its fields: `[31:16]` width, `[15:0]` height (R33). -/
def packDim (w h : Nat) : BitVec 32 := BitVec.ofNat 16 w ++ BitVec.ofNat 16 h

/-- `width * height` of a dimension register: the number of elements of the plane it describes (R60). -/
def dimSize (d : BitVec 32) : Nat := dimWidth d * dimHeight d

/-- The elementary steps of a command: vector fetches of a walk, pixels of U2 and U3 (R250). -/
def elementCount (j : Job) (s : State) : Nat :=
  match j with
  | .render _ => vseqRequired s.cfg
  | .norm g => dimSize (s.raw.get g).dim
  | .compose => dimSize s.aln.y.dim

end Sys2Proof.Machine
end

