-- ==== Sys2Proof/Machine/Flags.lean ====
section
/-! DEFINITION. The status flags (spec/10_state.md R23 to R26), the `STATUS` word they make (R32), the legality of
the configuration registers (R31) and the acceptance checks of a command (spec/60_exceptions.md R216). -/

namespace Sys2Proof.Machine

/-- The code of `STATE` (R24); 3 never occurs. -/
def RunState.code : RunState → BitVec 2
  | .idle => 0#2
  | .busy _ => 1#2
  | .fault => 2#2

/-- A command is running (R24). -/
def RunState.isBusy : RunState → Bool
  | .idle => false
  | .busy _ => true
  | .fault => false

/-- `STATUS` (R32), bit 31 first: every flag at its place, every other bit zero. -/
def statusWord (s : State) : BitVec 32 :=
  0#11 ++ BitVec.ofBool s.rgb.valid
    ++ 0#1 ++ BitVec.ofBool s.aln.cr.valid ++ BitVec.ofBool s.aln.cb.valid ++ BitVec.ofBool s.aln.y.valid
    ++ 0#1 ++ BitVec.ofBool s.nrm.bY.valid ++ BitVec.ofBool s.nrm.ry.valid ++ BitVec.ofBool s.nrm.y.valid
    ++ 0#1 ++ BitVec.ofBool s.raw.bY.valid ++ BitVec.ofBool s.raw.ry.valid ++ BitVec.ofBool s.raw.y.valid
    ++ BitVec.ofBool s.vseq.valid
    ++ BitVec.ofBool s.rom.bY.valid ++ BitVec.ofBool s.rom.ry.valid ++ BitVec.ofBool s.rom.y.valid
    ++ 0#1 ++ BitVec.ofBool s.refused ++ s.run.code

/-- The geometry registers that `RENDER.g` uses are legal (R31). -/
def geometryLegal (c : ConfigRegs) : Bool :=
  decide (c.backLen.toNat ≤ Config.maxGeometry) && decide (c.rasterLen.toNat ≤ Config.maxGeometry)
    && decide (c.frontLen.toNat ≤ Config.maxGeometry)
    && decide (1 ≤ lineCount c) && decide (lineCount c ≤ Config.maxGeometry)

/-- The luma window that `NORM.Y` uses is legal (R31). -/
def lumaLegal (c : ConfigRegs) : Bool := decide (c.yLow.toNat < c.yHigh.toNat)

/-- The headroom and the range register that a chroma command uses are legal (R31). -/
def chromaLegal (c : ConfigRegs) (range : BitVec 8) : Bool :=
  decide (1 ≤ c.cHeadroom.toNat) && decide (c.cHeadroom.toNat ≤ Config.maxHeadroom) && decide (1 ≤ range.toNat)

/-- The configuration registers that command `j` uses are legal (R31). -/
def configLegal (j : Job) (c : ConfigRegs) : Bool :=
  match j with
  | .render _ => geometryLegal c
  | .norm .y => lumaLegal c
  | .norm .ry => chromaLegal c c.cRangeRY
  | .norm .bY => chromaLegal c c.cRangeBY
  | .compose => true

/-- The source buffers of command `j` hold values (R216, check 4). -/
def inputsValid (j : Job) (s : State) : Bool :=
  match j with
  | .render g => (s.rom.get g).valid && s.vseq.valid
  | .norm g => (s.raw.get g).valid
  | .compose => s.aln.y.valid && s.aln.cb.valid && s.aln.cr.valid

/-- Why a command is refused (R216). -/
inductive RefuseReason where
  | notIdle
  | illegalCmd
  | cfgIllegal
  | inputNotValid
deriving DecidableEq, Repr

/-- The reason code, `REFUSE_REASON[3:0]` (R216). -/
def RefuseReason.code : RefuseReason → BitVec 8
  | .notIdle => 1#8
  | .illegalCmd => 2#8
  | .cfgIllegal => 3#8
  | .inputNotValid => 4#8

/-- The acceptance checks 1, 3 and 4 of a legal command word, in order; the first that fails is the reason (R216). -/
def rejection (j : Job) (s : State) : Option RefuseReason :=
  if s.run ≠ .idle then some .notIdle
  else if configLegal j s.cfg = false then some .cfgIllegal
  else if inputsValid j s = false then some .inputNotValid
  else none

/-- The acceptance checks 1 and 2 of a reserved command word (R216). -/
def reservedRejection (s : State) : RefuseReason :=
  if s.run ≠ .idle then .notIdle else .illegalCmd

end Sys2Proof.Machine
end

