-- ==== Sys2Proof/Machine/Ops.lean ====
section
/-! DEFINITION. The named operations: reading and writing memories, registers and buffers, refusing a command
(spec/60_exceptions.md R215), raising a fault (R206), starting and completing a command, and reset
(spec/70_reset_and_hazards.md R240), the only return from a fault (R209). -/

namespace Sys2Proof.Machine

/-! ### Memories (spec/20_memory.md R60, R64) -/

/-- The element at index `a`, if the memory holds a value there. -/
def Memory.read {α : Type} : Memory α → Nat → Option α
  | [], _ => none
  | (b, v) :: rest, a => if a = b then some v else Memory.read rest a

/-- Store `v` at index `a`, keeping the indices rising. -/
def Memory.write {α : Type} : Memory α → Nat → α → Memory α
  | [], a, v => [(a, v)]
  | (b, w) :: rest, a, v =>
    if a < b then (a, v) :: (b, w) :: rest
    else if a = b then (a, v) :: rest
    else (b, w) :: Memory.write rest a v

/-- The memory that holds a list of elements from index `k` up. -/
def Memory.ofListFrom {α : Type} : Nat → List α → Memory α
  | _, [] => []
  | k, v :: vs => (k, v) :: Memory.ofListFrom (k + 1) vs

/-- The memory that holds a list of elements, the first at index 0 (R63). -/
def Memory.ofList {α : Type} (vs : List α) : Memory α := Memory.ofListFrom 0 vs

/-- The elements a memory holds, in ascending index order (R63). -/
def Memory.contents {α : Type} (m : Memory α) : List α := m.map Prod.snd

/-! ### `MemRead` and `MemWrite` (spec/00_scope.md R15): a read is defined only inside the length of a space that holds
a value -/

/-- `VSEQ[i]`. -/
def readVseq (s : State) (i : Nat) : Option Word16 :=
  if s.vseq.valid = true ∧ i < s.vseq.len.toNat then Memory.read s.vseq.mem i else none

/-- `ROM[g][c]`, as a memory. -/
def romChan (s : State) (g : Group) (c : Nat) : Memory Byte := (s.rom.get g).chans.getD c []

/-- `ROM[g][c][a]`. -/
def readRom (s : State) (g : Group) (c a : Nat) : Option Byte :=
  if (s.rom.get g).valid = true ∧ a < (s.rom.get g).len.toNat then Memory.read (romChan s g c) a else none

/-- Element `n` of a plane buffer. -/
def Buffer.read {α : Type} (b : Buffer α) (n : Nat) : Option α :=
  if b.valid = true ∧ n < dimSize b.dim then Memory.read b.mem n else none

/-- Store element `n` of a plane buffer. -/
def Buffer.write {α : Type} (b : Buffer α) (n : Nat) (v : α) : Buffer α := { b with mem := Memory.write b.mem n v }

/-- A buffer that holds a whole plane (R75, R78). -/
def Buffer.loaded {α : Type} (w h : Nat) (data : List α) : Buffer α :=
  { valid := true, dim := packDim w h, mem := Memory.ofList data }

/-- A buffer whose writer has completed: its dimensions and its valid bit (R132, R163, R187). -/
def Buffer.complete {α : Type} (b : Buffer α) (dim : BitVec 32) : Buffer α := { b with valid := true, dim := dim }

/-! ### Registers (spec/10_state.md R30, R32, R33) -/

/-- A length or dimension register: 0 while its buffer's valid bit is 0 (R33). -/
def whileValid (valid : Bool) (v : BitVec 32) : BitVec 32 := if valid then v else 0#32

/-- The value a host reads from register `n`, zero-extended: `CMD`, and every number that does not exist, read 0 (R32,
R33; log 16). -/
def readReg (s : State) : Nat → BitVec 32
  | 0 => s.cfg.backLen.setWidth 32
  | 1 => s.cfg.rasterLen.setWidth 32
  | 2 => s.cfg.frontLen.setWidth 32
  | 3 => s.cfg.numLines.setWidth 32
  | 4 => s.cfg.yLow.setWidth 32
  | 5 => s.cfg.yHigh.setWidth 32
  | 6 => s.cfg.cHeadroom.setWidth 32
  | 7 => s.cfg.cRangeRY.setWidth 32
  | 8 => s.cfg.cRangeBY.setWidth 32
  | 17 => statusWord s
  | 18 => s.faultRec.cause.setWidth 32
  | 19 => s.faultRec.index
  | 20 => s.faultRec.value
  | 21 => s.refuseReason.setWidth 32
  | 24 => whileValid s.vseq.valid s.vseq.len
  | 25 => whileValid s.rom.y.valid s.rom.y.len
  | 26 => whileValid s.rom.ry.valid s.rom.ry.len
  | 27 => whileValid s.rom.bY.valid s.rom.bY.len
  | 32 => whileValid s.raw.y.valid s.raw.y.dim
  | 33 => whileValid s.raw.ry.valid s.raw.ry.dim
  | 34 => whileValid s.raw.bY.valid s.raw.bY.dim
  | 35 => whileValid s.nrm.y.valid s.nrm.y.dim
  | 36 => whileValid s.nrm.ry.valid s.nrm.ry.dim
  | 37 => whileValid s.nrm.bY.valid s.nrm.bY.dim
  | 38 => whileValid s.aln.y.valid s.aln.y.dim
  | 39 => whileValid s.aln.cb.valid s.aln.cb.dim
  | 40 => whileValid s.aln.cr.valid s.aln.cr.dim
  | 41 => whileValid s.rgb.valid s.rgb.dim
  | _ => 0#32

/-- A host write of `v` to configuration register `n`; a write to any other number changes nothing (R30, R32, R33). -/
def ConfigRegs.write (c : ConfigRegs) (n v : Nat) : ConfigRegs :=
  match n with
  | 0 => { c with backLen := BitVec.ofNat 16 v }
  | 1 => { c with rasterLen := BitVec.ofNat 16 v }
  | 2 => { c with frontLen := BitVec.ofNat 16 v }
  | 3 => { c with numLines := BitVec.ofNat 16 v }
  | 4 => { c with yLow := BitVec.ofNat 8 v }
  | 5 => { c with yHigh := BitVec.ofNat 8 v }
  | 6 => { c with cHeadroom := BitVec.ofNat 8 v }
  | 7 => { c with cRangeRY := BitVec.ofNat 8 v }
  | 8 => { c with cRangeBY := BitVec.ofNat 8 v }
  | _ => c

/-! ### Refusing a command (R215) -/

/-- `refuse <Reason>`: `REFUSED` is set, the first reason is kept, nothing else changes (R215). -/
def refuse (r : RefuseReason) (s : State) : State :=
  { s with refused := true, refuseReason := if s.refuseReason = 0#8 then r.code else s.refuseReason }

/-! ### Faults (R200 to R206) -/

/-- The faults the hardware raises, with the group each records (R200 to R205). -/
inductive FaultKind where
  /-- `MalformedInputError(SEQ_TOO_SHORT)` (R123, R201). -/
  | seqTooShort (g : Group)
  /-- `MalformedInputError(ROM_INDEX_OUT_OF_RANGE)` (R126, R201). -/
  | romIndexOutOfRange (g : Group)
  /-- `CalibrationOvershootError`: `LUMA` for group `Y`, `CHROMA` for the others (R155, R161, R202). -/
  | calibrationOvershoot (g : Group)
  /-- `GeometryMismatchError(WIDTH)`, with the group of the plane that differs (R181, R203). -/
  | widthMismatch (g : Group)
  /-- `GeometryMismatchError(HEIGHT)`, with the group of the plane that differs (R181, R203). -/
  | heightMismatch (g : Group)
deriving DecidableEq, Repr

/-- `CAUSE` (R200). -/
def FaultKind.cause : FaultKind → BitVec 4
  | .seqTooShort _ => 1#4
  | .romIndexOutOfRange _ => 1#4
  | .calibrationOvershoot _ => 2#4
  | .widthMismatch _ => 3#4
  | .heightMismatch _ => 3#4

/-- `SUBCAUSE` (R201 to R203). -/
def FaultKind.subcause : FaultKind → BitVec 4
  | .seqTooShort _ => 1#4
  | .romIndexOutOfRange _ => 2#4
  | .calibrationOvershoot .y => 1#4
  | .calibrationOvershoot .ry => 2#4
  | .calibrationOvershoot .bY => 2#4
  | .widthMismatch _ => 1#4
  | .heightMismatch _ => 2#4

/-- `STAGE` (R205): 1 Field Renderer, 2 Level Normalizer, 3 Compositor. -/
def FaultKind.stage : FaultKind → BitVec 4
  | .seqTooShort _ => 1#4
  | .romIndexOutOfRange _ => 1#4
  | .calibrationOvershoot _ => 2#4
  | .widthMismatch _ => 3#4
  | .heightMismatch _ => 3#4

/-- `GROUP` (R205). -/
def FaultKind.group : FaultKind → BitVec 4
  | .seqTooShort g => groupCode g
  | .romIndexOutOfRange g => groupCode g
  | .calibrationOvershoot g => groupCode g
  | .widthMismatch g => groupCode g
  | .heightMismatch g => groupCode g

/-- `FAULT_CAUSE`: `[15:12] GROUP`, `[11:8] STAGE`, `[7:4] SUBCAUSE`, `[3:0] CAUSE` (R32). -/
def FaultKind.word (k : FaultKind) : BitVec 16 := k.group ++ k.stage ++ k.subcause ++ k.cause

/-- The destination of command `j` holds no value: valid bit 0, dimension register 0, no content (R25, R64; log 10). -/
def clearDest (j : Job) (s : State) : State :=
  match j with
  | .render g => { s with raw := s.raw.set g Buffer.empty }
  | .norm g => { s with nrm := s.nrm.set g Buffer.empty }
  | .compose => { s with rgb := Buffer.empty }

/-- The destination of the running command, if one runs, holds no value. -/
def dropDest (s : State) : State :=
  match s.run with
  | .idle => s
  | .busy j => clearDest j s
  | .fault => s

/-- `raise <Fault>(info)`: the fault record, `STATE <- FAULT`, and the destination of the running command holds no value;
no other buffer, valid bit or register changes (R206, R207). -/
def raise (k : FaultKind) (index value : Nat) (s : State) : State :=
  { dropDest s with
    faultRec := { cause := k.word, index := BitVec.ofNat 32 index, value := BitVec.ofNat 32 value }
    run := .fault }

/-! ### Starting and completing a command (R124, R132, R163, R187) -/

/-- The start of command `j`: its destination holds no value, `STATE <- BUSY` (R25, R124, R163, R187). -/
def begin (j : Job) (s : State) : State := { clearDest j s with run := .busy j }

/-- The working registers that command `j` initialises (R21, R124). -/
def initWork (j : Job) (s : State) : State :=
  match j with
  | .render _ => { s with walk := walkStart s.cfg }
  | .norm _ => { s with normIdx := 0 }
  | .compose => { s with compIdx := 0 }

/-- The end of command `j`: dimension register, valid bit, `STATE <- IDLE` (R132, R163, R187). -/
def complete (j : Job) (s : State) : State :=
  match j with
  | .render g =>
    { s with
      raw := s.raw.set g ((s.raw.get g).complete (packDim (planeWidth s.cfg g) (planeHeight s.cfg)))
      run := .idle }
  | .norm g =>
    { s with nrm := s.nrm.set g ((s.nrm.get g).complete (s.raw.get g).dim), run := .idle }
  | .compose => { s with rgb := s.rgb.complete s.aln.y.dim, run := .idle }

/-! ### Reset (R40, R240) -/

/-- `Reset`: every piece of state at its reset value, from any state; the only return from a fault (R209, R240). The
host's mailboxes are the model's own and stay (log 14). -/
def applyReset (s : State) : State := { State.reset with inbox := s.inbox, outbox := s.outbox }

end Sys2Proof.Machine
end

