-- ==== Sys2Proof/Machine/Command.lean ====
section
/-! DEFINITION. How a command runs: accepted or refused (spec/60_exceptions.md R216), begun, checked, then one elementary
step after the other until it completes or faults (spec/20_memory.md R70, R74: a command is one step of the model). -/

namespace Sys2Proof.Machine

/-- Elementary steps, at most `fuel` of them, while a command runs. -/
def runWhileBusy (micro : State → Result) : Nat → State → Result
  | 0, s => .next s
  | fuel + 1, s =>
    if s.run.isBusy then
      match micro s with
      | .next s' => runWhileBusy micro fuel s'
      | .fault r => .fault r
      | .refused r => .refused r
    else .next s

/-- A command that has begun: the check that comes first either raises its fault (R208), or the working registers are
initialised and the elementary steps follow, and one more for the completion. -/
def runBegun (j : Job) (check : State → Option (FaultKind × Nat × Nat)) (micro : State → Result) (s : State) : Result :=
  match check s with
  | some (kind, index, value) => .next (raise kind index value s)
  | none => runWhileBusy micro (elementCount j s + 1) (initWork j s)

/-- A command issued to the block: refused by R216, or run to its end. -/
def runCommand (j : Job) (check : State → Option (FaultKind × Nat × Nat)) (micro : State → Result) (s : State) : Result :=
  match rejection j s with
  | some reason => .next (refuse reason s)
  | none => runBegun j check micro (begin j s)

end Sys2Proof.Machine
end

