-- ==== Sys2Proof/Machine/Compose.lean ====
section
/-! DEFINITION. Unit U3, ycbcr_to_rgb_compositor (spec/42_compositor.md): the geometry check, color_matrix in exact
integers over fixed denominators, channel_clamp, and `COMPOSE`. -/

namespace Sys2Proof.Machine

/-- The denominators of the three channels (R183). -/
def rDen : Int := 500
/-- The denominator of G (R183). -/
def gDen : Int := 587000
/-- The denominator of B (R183). -/
def bDen : Int := 250

/-- A chroma byte as a signed deviation from 128: `db` and `dr` (R182). -/
def deviation (v : Byte) : Int := (v.toNat : Int) - Config.neutral

/-- `Rnum` (R183). -/
def rNum (y cr : Byte) : Int := 500 * y.toNat + 701 * deviation cr
/-- `Gnum` (R183). -/
def gNum (y cb cr : Byte) : Int := 587000 * y.toNat - 202008 * deviation cb - 419198 * deviation cr
/-- `Bnum` (R183). -/
def bNum (y cb : Byte) : Int := 250 * y.toNat + 443 * deviation cb

/-- `channel_clamp`: the exact value `num / den` clamped to [0, 255] and truncated (R184). -/
def clampTrunc (num den : Int) : Byte :=
  if num ≤ 0 then 0#8
  else if num ≥ Config.fullScale * den then 255#8
  else BitVec.ofNat 8 (num / den).toNat

/-- `channel_clamp(color_matrix(Y, Cb, Cr))` (R182 to R184). -/
def composePixel (y cb cr : Byte) : Rgb where
  r := clampTrunc (rNum y cr) rDen
  g := clampTrunc (gNum y cb cr) gDen
  b := clampTrunc (bNum y cb) bDen

/-- The geometry check, in the order of its four tests: `CB` width, `CB` height, `CR` width, `CR` height, each against
`Y` (R181). -/
def composeCheck (s : State) : Option (FaultKind × Nat × Nat) :=
  let dy := s.aln.y.dim
  let db := s.aln.cb.dim
  let dr := s.aln.cr.dim
  if dimWidth db ≠ dimWidth dy then some (.widthMismatch .bY, dimWidth dy, dimWidth db)
  else if dimHeight db ≠ dimHeight dy then some (.heightMismatch .bY, dimHeight dy, dimHeight db)
  else if dimWidth dr ≠ dimWidth dy then some (.widthMismatch .ry, dimWidth dy, dimWidth dr)
  else if dimHeight dr ≠ dimHeight dy then some (.heightMismatch .ry, dimHeight dy, dimHeight dr)
  else none

/-- Element `n` of the aligned plane `k`, or the model's stop. -/
def readAligned (k : AlnSel) (s : State) : Except Fault Byte :=
  match (s.aln.get k).read s.compIdx with
  | none => .error (.noValue (.aln k) s.compIdx)
  | some v => .ok v

/-- One pixel of `COMPOSE`: the three planes at the same element index (R187, R189). -/
def composeElement (s : State) : Result :=
  match readAligned .y s, readAligned .cb s, readAligned .cr s with
  | .ok y, .ok cb, .ok cr =>
    .next { s with rgb := s.rgb.write s.compIdx (composePixel y cb cr), compIdx := s.compIdx + 1 }
  | .error e, _, _ => .fault e
  | .ok _, .error e, _ => .fault e
  | .ok _, .ok _, .error e => .fault e

/-- An elementary step of `COMPOSE`: a pixel, or the completion after the last (R187). -/
def composeMicro (s : State) : Result :=
  if elementCount .compose s ≤ s.compIdx then .next (complete .compose s) else composeElement s

/-- `COMPOSE` (R187). -/
def execCompose (s : State) : Result := runCommand .compose composeCheck composeMicro s

end Sys2Proof.Machine
end

