-- ==== Sys2Proof/Machine/Normalize.lean ====
section
/-! DEFINITION. Unit U2, level_normalizer (spec/41_level_normalizer.md): the luma and chroma transforms in exact integer
arithmetic, their application to a plane, and the three `NORM` commands. -/

namespace Sys2Proof.Machine

/-- The luma clamp of clipping_stage: values below 0 after inversion become 0 (R154). -/
def lumaClamp (adjusted : Int) : Int := if adjusted < 0 then 0 else adjusted

/-- `SaturateY(raw)` for a window `low`, `high`; none is the marker `OVR`, overshoot (R151 to R155). -/
def saturateY (low high raw : Byte) : Option Byte :=
  let span : Int := (high.toNat : Int) - low.toNat
  let adjusted := lumaClamp ((high.toNat : Int) - raw.toNat)
  if adjusted > span then none
  else some (BitVec.ofNat 8 (adjusted * Config.fullScale / span).toNat)

/-- `SaturateChroma(raw, range)` for a headroom; none is the marker `OVR`, overshoot (R151, R158 to R161). -/
def saturateChroma (headroom range raw : Byte) : Option Byte :=
  let neg : Int := (Config.neutral : Int) - raw.toNat
  let amp : Int := (Config.neutral : Int) - headroom.toNat
  if (neg.natAbs : Int) * amp > amp * range.toNat then none
  else some (BitVec.ofNat 8 ((Config.neutral * range.toNat + neg * amp) / range.toNat).toNat)

/-- `transfer_function_lut` and `clipping_stage` of group `g`: a function of the input code and the level registers
(R151, R164 to R167). -/
def levelTransform (g : Group) (c : ConfigRegs) (raw : Byte) : Option Byte :=
  match g with
  | .y => saturateY c.yLow c.yHigh raw
  | .ry => saturateChroma c.cHeadroom c.cRangeRY raw
  | .bY => saturateChroma c.cHeadroom c.cRangeBY raw

/-- One pixel of `NORM.g`: element `n` of `RAW[g]` through the transform to element `n` of `NRM[g]`; an overshoot ends
the command (R163). -/
def normPixel (g : Group) (s : State) : Result :=
  match (s.raw.get g).read s.normIdx with
  | none => .fault (.noValue (.raw g) s.normIdx)
  | some raw =>
    match levelTransform g s.cfg raw with
    | none => .next (raise (.calibrationOvershoot g) s.normIdx raw.toNat s)
    | some v =>
      .next { s with nrm := s.nrm.set g ((s.nrm.get g).write s.normIdx v), normIdx := s.normIdx + 1 }

/-- An elementary step of `NORM.g`: a pixel, or the completion after the last (R163). -/
def normMicro (g : Group) (s : State) : Result :=
  if elementCount (.norm g) s ≤ s.normIdx then .next (complete (.norm g) s) else normPixel g s

/-- `NORM.g` (R163); it makes no check before the first pixel (R208). -/
def norm (g : Group) (s : State) : Result := runCommand (.norm g) (fun _ => none) (normMicro g) s

/-- `NORM.Y` (R164). -/
def execNormY (s : State) : Result := norm .y s

/-- `NORM.RY` (R165). -/
def execNormRY (s : State) : Result := norm .ry s

/-- `NORM.BY` (R166). -/
def execNormBY (s : State) : Result := norm .bY s

end Sys2Proof.Machine
end

