-- ==== Sys2Proof/Machine/Render.lean ====
section
/-! DEFINITION. Unit U1, rom_address_vector_renderer (spec/40_field_walker.md): `VFETCH`, the walk over the vector
sequence, and the three `RENDER` commands. -/

namespace Sys2Proof.Machine

/-- The element address in `RAW[g]` that the walk stands at: `row * W + col` (R125). -/
def drawAddress (g : Group) (s : State) : Nat := s.walk.row * planeWidth s.cfg g + s.walk.col g

/-- The current line has a row: it is not the last line of its field (R130). -/
def lineDrawn (s : State) : Bool := decide (s.walk.k + 1 < lineCount s.cfg)

/-- One sample of `VFETCH`: a byte of channel `c` at ROM address `a`, stored unchanged if the line is drawn (R125,
R130); then the next channel. -/
def drawSample (g : Group) (a : Nat) (s : State) : Result :=
  match readRom s g s.walk.c a with
  | none => .fault (.noValue (.rom g s.walk.c) a)
  | some v =>
    .next
      { s with
        raw := if lineDrawn s then s.raw.set g ((s.raw.get g).write (drawAddress g s) v) else s.raw
        walk := { s.walk with c := s.walk.c + 1 } }

/-- The samples of the next `m` channels, in channel order (R125). -/
def drawSamples (g : Group) (a : Nat) : Nat → State → Result
  | 0, s => .next s
  | m + 1, s =>
    match drawSample g a s with
    | .next s' => drawSamples g a m s'
    | .fault r => .fault r
    | .refused r => .refused r

/-- `VFETCH` for group `g` with entry value `a`: the bound check (R126), one sample from every channel of the group,
and the cursor's advance (R125, R127). -/
def vfetch (g : Group) (a : Word16) (s : State) : Result :=
  if (s.rom.get g).len.toNat ≤ a.toNat then
    .next (raise (.romIndexOutOfRange g) s.walk.cursor a.toNat s)
  else
    match drawSamples g a.toNat (cpg g) { s with walk := { s.walk with c := 0 } } with
    | .next s' => .next { s' with walk := s'.walk.advance s'.cfg }
    | .fault r => .fault r
    | .refused r => .refused r

/-- The walk stands at an entry: `0 <= k < N`, `0 <= p < L` (R125). -/
def atEntry (s : State) : Bool := decide (s.walk.k < lineCount s.cfg) && decide (s.walk.p < lineWidth s.cfg)

/-- The last line has been walked (R127, R132). -/
def walkDone (s : State) : Bool := decide (lineCount s.cfg ≤ s.walk.k)

/-- An elementary step of `RENDER.g`: the completion after the last entry (R132), or the fetch of `VSEQ[vcur[f]]` and
its `VFETCH` (R125). -/
def renderMicro (g : Group) (s : State) : Result :=
  if walkDone s then .next (complete (.render g) s)
  else
    match readVseq s s.walk.cursor with
    | none => .fault (.noValue .vseq s.walk.cursor)
    | some a => vfetch g a s

/-- The length check, made before any entry is read (R123). -/
def renderCheck (g : Group) (s : State) : Option (FaultKind × Nat × Nat) :=
  if s.vseq.len.toNat < vseqRequired s.cfg then some (.seqTooShort g, s.vseq.len.toNat, vseqRequired s.cfg) else none

/-- `RENDER.g` (R120, R133): one routine with a different channel count. -/
def render (g : Group) (s : State) : Result := runCommand (.render g) (renderCheck g) (renderMicro g) s

/-- `RENDER.Y` (R133). -/
def execRenderY (s : State) : Result := render .y s

/-- `RENDER.RY` (R134). -/
def execRenderRY (s : State) : Result := render .ry s

/-- `RENDER.BY` (R135). -/
def execRenderBY (s : State) : Result := render .bY s

/-- `VFETCH a` (R125): one step of the walk of the running `RENDER.g`. Where no walk stands at an entry the spec defines
no `VFETCH`, and it has no move (log 9). -/
def execVfetch (a : Word16) (s : State) : Result :=
  match s.run with
  | .busy (.render g) => if atEntry s then vfetch g a s else .refused .walkNotRunning
  | .busy (.norm _) => .refused .walkNotRunning
  | .busy .compose => .refused .walkNotRunning
  | .idle => .refused .walkNotRunning
  | .fault => .refused .walkNotRunning

end Sys2Proof.Machine
end

