-- ==== Sys2Proof/Machine/Dispatch.lean ====
section
/-! DEFINITION. One arm per instruction of the opcode table, each one direct call of its meaning. -/

namespace Sys2Proof.Machine

def exec (i : Instr) (s : State) : Host.Outcome State Fault Refusal :=
  match i with
  | .renderY => Sys2Proof.Machine.execRenderY s
  | .renderRY => Sys2Proof.Machine.execRenderRY s
  | .renderBY => Sys2Proof.Machine.execRenderBY s
  | .normY => Sys2Proof.Machine.execNormY s
  | .normRY => Sys2Proof.Machine.execNormRY s
  | .normBY => Sys2Proof.Machine.execNormBY s
  | .compose => Sys2Proof.Machine.execCompose s
  | .vfetch a => Sys2Proof.Machine.execVfetch a s

end Sys2Proof.Machine
end

