-- ==== Sys2Proof/WellFormed.lean ====
section
/-! DEFINITION. What is well formed: every instruction (spec/30_encoding.md R90: every one of the 65536 vector
patterns is a well-formed entry, and a command has no operand), and the host transactions that keep the shapes of
spec/20_memory.md R75 to R78. -/

namespace Sys2Proof

/-- Every instruction is well formed: a command has no operand (R99), and no vector pattern is illegal as a pattern
(R90, R107). -/
def Instr.wf : Instr → Bool
  | .renderY => true
  | .renderRY => true
  | .renderBY => true
  | .normY => true
  | .normRY => true
  | .normBY => true
  | .compose => true
  | .vfetch _ => true

namespace Machine

/-- A plane with its dimensions as R75 asks: both below 2^16, and exactly `W * H` bytes. -/
def planeShapeOk (w h : Nat) (data : List Byte) : Bool :=
  decide (w < 2 ^ 16) && decide (h < 2 ^ 16) && decide (data.length = w * h)

/-- The channel lists of R77: exactly `cpg(g)` of them, all of the same length `n` with `1 <= n < 2^32`. -/
def romShapeOk (g : Group) (chans : List (List Byte)) : Bool :=
  let n := (chans.headD []).length
  decide (chans.length = cpg g) && chans.all (fun c => decide (c.length = n)) && decide (1 ≤ n) && decide (n < 2 ^ 32)

/-- A value fits the register it is written to (R30, R32; log 8). -/
def writeFits (n v : Nat) : Bool :=
  match writeWidth n with
  | some w => decide (v < 2 ^ w)
  | none => true

/-- A well-formed transaction (R75 to R78); one that is not has no move (D22). -/
def Transaction.wf : Transaction → Bool
  | .reset => true
  | .writeReg n v => writeFits n v
  | .readReg _ => true
  | .loadVseq entries => decide (entries.length < 2 ^ 32)
  | .loadRom g chans => romShapeOk g chans
  | .loadRaw _ w h data => planeShapeOk w h data
  | .loadAligned _ w h data => planeShapeOk w h data
  | .readPlane _ => true

end Machine
end Sys2Proof
end

