-- ==== Sys2Proof/Decode.lean ====
section
/-! DEFINITION. The decoder of the two code spaces (spec/30_encoding.md R90, R91, R99, R100, R106, R107), total and
rejecting by name, and the encoder. The spaces never mix: a word carries which of the two it stands in. -/

namespace Sys2Proof

/-- A word of one of the two code spaces (R90): a command word (format CW8) or a vector entry (format V16). -/
inductive Code where
  | cw8 (w : BitVec 8)
  | v16 (w : BitVec 16)
deriving DecidableEq, Repr

/-- Why a command word is reserved (R106); of several reasons `decodeCommand` names one (log 19). -/
inductive DecodeError where
  /-- `OP` outside 1..3. -/
  | reservedOp
  /-- `Z` is not zero. -/
  | reservedZ
  /-- `SEL = 3`, or `COMPOSE` with `SEL != 0`. -/
  | reservedSel
deriving DecidableEq, Repr

/-- `OP`, bits 7:4 of a command word (R91). -/
def fieldOp (w : BitVec 8) : BitVec 4 := w.extractLsb' 4 4
/-- `Z`, bits 3:2 of a command word (R91). -/
def fieldZ (w : BitVec 8) : BitVec 2 := w.extractLsb' 2 2
/-- `SEL`, bits 1:0 of a command word (R91, R99). -/
def fieldSel (w : BitVec 8) : BitVec 2 := w.extractLsb' 0 2

/-- Decode `RENDER`: the group is `SEL` (R92 to R94, R99). -/
def decodeRender (sel : BitVec 2) : Except DecodeError Instr :=
  if sel = 0#2 then .ok .renderY
  else if sel = 1#2 then .ok .renderRY
  else if sel = 2#2 then .ok .renderBY
  else .error .reservedSel

/-- Decode `NORM`: the group is `SEL` (R95 to R97, R99). -/
def decodeNorm (sel : BitVec 2) : Except DecodeError Instr :=
  if sel = 0#2 then .ok .normY
  else if sel = 1#2 then .ok .normRY
  else if sel = 2#2 then .ok .normBY
  else .error .reservedSel

/-- Decode `COMPOSE`: `SEL` must be zero (R98). -/
def decodeCompose (sel : BitVec 2) : Except DecodeError Instr :=
  if sel = 0#2 then .ok .compose else .error .reservedSel

/-- The command decoder: one of the seven commands or reserved, for every word (R106). DESIGN CHOICE (log 19): R106 gives a
word that is reserved on several counts no one reason; the model names the first of `OP`, `Z`, `SEL`, the order in which
R106 lists them. No state depends on the reason. -/
def decodeCommand (w : BitVec 8) : Except DecodeError Instr :=
  if fieldOp w = 0#4 ∨ 3#4 < fieldOp w then .error .reservedOp
  else if fieldZ w ≠ 0#2 then .error .reservedZ
  else if fieldOp w = 1#4 then decodeRender (fieldSel w)
  else if fieldOp w = 2#4 then decodeNorm (fieldSel w)
  else decodeCompose (fieldSel w)

/-- The vector decoder: every entry is `VFETCH` of its 16 bits (R100, R107). -/
def decodeVector (w : BitVec 16) : Instr := .vfetch w

/-- The decoder of both spaces. -/
def decode : Code → Except DecodeError Instr
  | .cw8 w => decodeCommand w
  | .v16 w => .ok (decodeVector w)

/-- What the decoder reads from an opcode-table row's bits: a row of 8 bits stands in the command space, a row of 16
in the vector space. No byte order exists (R65): each word is one element of its space. -/
def decodeTableWord (nbits w : Nat) : Option Instr :=
  if nbits = 8 then (decode (.cw8 (BitVec.ofNat 8 w))).toOption
  else if nbits = 16 then (decode (.v16 (BitVec.ofNat 16 w))).toOption
  else none

/-- A command word from its fields `OP`, `Z`, `SEL` (R91). -/
def commandWord (op : BitVec 4) (sel : BitVec 2) : Code := .cw8 (op ++ 0#2 ++ sel)

/-- The encoder, from the same table (R92 to R98, R100). -/
def encode : Instr → Code
  | .renderY => commandWord 1#4 0#2
  | .renderRY => commandWord 1#4 1#2
  | .renderBY => commandWord 1#4 2#2
  | .normY => commandWord 2#4 0#2
  | .normRY => commandWord 2#4 1#2
  | .normBY => commandWord 2#4 2#2
  | .compose => commandWord 3#4 0#2
  | .vfetch a => .v16 a

end Sys2Proof
end

