-- ==== Sys2Proof/Machine/HostOps.lean ====
section
/-! DEFINITION. The host transactions of spec/20_memory.md R74 to R79 and R84 on the state: what each does in IDLE, BUSY
and FAULT. The command issue is not here: it is fetched and executed (Machine/Fetch.lean). -/

namespace Sys2Proof.Machine

/-- Host writes take effect in IDLE and have no effect in BUSY and FAULT (R74, R246; log 7). -/
def whenIdle (s s' : State) : State := if s.run = .idle then s' else s

/-- Write `v` to register `n` (R30, R32, R33, R74). -/
def hostWriteReg (n v : Nat) (s : State) : State := whenIdle s { s with cfg := s.cfg.write n v }

/-- `HostLoadVseq` (R76). -/
def hostLoadVseq (entries : List Word16) (s : State) : State :=
  whenIdle s
    { s with vseq := { valid := true, len := BitVec.ofNat 32 entries.length, mem := Memory.ofList entries } }

/-- `HostLoadRom` (R77); the length is that of the first channel, which all share. -/
def hostLoadRom (g : Group) (chans : List (List Byte)) (s : State) : State :=
  whenIdle s
    { s with
      rom := s.rom.set g
        { valid := true
          len := BitVec.ofNat 32 (chans.headD []).length
          chans := chans.map Memory.ofList } }

/-- `HostLoadRaw` (R78). -/
def hostLoadRaw (g : Group) (w h : Nat) (data : List Byte) (s : State) : State :=
  whenIdle s { s with raw := s.raw.set g (Buffer.loaded w h data) }

/-- `HostLoadAligned` (R75). -/
def hostLoadAligned (k : AlnSel) (w h : Nat) (data : List Byte) (s : State) : State :=
  whenIdle s { s with aln := s.aln.set k (Buffer.loaded w h data) }

/-- The reply is handed to the host. -/
def deliver (r : Reply) (s : State) : State := { s with outbox := s.outbox ++ [r] }

/-- Read register `n`: any register in IDLE and FAULT, `STATUS` only in BUSY (R74). -/
def hostReadReg (n : Nat) (s : State) : State :=
  if s.run.isBusy = true ∧ n ≠ statusNumber then s else deliver (.reg n (readReg s n)) s

/-- What `HostReadPlane(B)` returns: dimensions and the whole content if the valid bit is 1, else nothing (R79). -/
def planeReply (b : ReadSel) (s : State) : Option Reply :=
  match b with
  | .raw g =>
    let p := s.raw.get g
    if p.valid then some (.plane b (dimWidth p.dim) (dimHeight p.dim) p.mem.contents) else none
  | .nrm g =>
    let p := s.nrm.get g
    if p.valid then some (.plane b (dimWidth p.dim) (dimHeight p.dim) p.mem.contents) else none
  | .rgb => if s.rgb.valid then some (.image (dimWidth s.rgb.dim) (dimHeight s.rgb.dim) s.rgb.mem.contents) else none

/-- `HostReadPlane(B)`, allowed in IDLE and FAULT (R74, R79). -/
def hostReadPlane (b : ReadSel) (s : State) : State :=
  if s.run.isBusy then s
  else
    match planeReply b s with
    | some r => deliver r s
    | none => s

/-- A well-formed transaction that is no command issue. -/
def transact (t : Transaction) (s : State) : State :=
  match t with
  | .reset => applyReset s
  | .writeReg n v => hostWriteReg n v s
  | .readReg n => hostReadReg n s
  | .loadVseq entries => hostLoadVseq entries s
  | .loadRom g chans => hostLoadRom g chans s
  | .loadRaw g w h data => hostLoadRaw g w h data s
  | .loadAligned k w h data => hostLoadAligned k w h data s
  | .readPlane b => hostReadPlane b s

end Sys2Proof.Machine
end

