-- ==== Sys2Proof/Machine/Fetch.lean ====
section
/-! DEFINITION. What the block does next: the next entry of a running walk, the next elementary step of a running command,
or the host's next transaction (spec/10_state.md R22, spec/20_memory.md R74, spec/70_reset_and_hazards.md R240, R241),
and how a test places one instruction there. -/

namespace Sys2Proof.Machine

/-- What the next step is: an instruction to execute on a state, or an answer that executes none. -/
inductive Fetch where
  | instr (i : Instr) (s : State)
  | answer (r : Result)

/-- The next thing a running command does: `RENDER.g` fetches `VSEQ[vcur[f]]` until its last line is walked (R22, R125,
R132); the other commands take their next pixel (R163, R187). Log 2. -/
def fetchBusy (j : Job) (s : State) : Fetch :=
  match j with
  | .render g =>
    if walkDone s then .answer (.next (complete (.render g) s))
    else
      match readVseq s s.walk.cursor with
      | none => .answer (.fault (.noValue .vseq s.walk.cursor))
      | some a => .instr (decodeVector a) s
  | .norm g => .answer (normMicro g s)
  | .compose => .answer (composeMicro s)

/-- A command word written to `CMD`: one of the seven commands, or a reserved word, which is refused (R106, R216). -/
def fetchCommand (w : Byte) (s : State) : Fetch :=
  match decodeCommand w with
  | .ok i => .instr i s
  | .error _ => .answer (.next (refuse (reservedRejection s) s))

/-- A host transaction, taken from the inbox: ill-formed, a command issue, or any other (R74 to R79). -/
def fetchTransaction (t : Transaction) (s : State) : Fetch :=
  if t.wf = false then .answer (.refused .illFormedTransaction)
  else
    match t with
    | .writeReg n v =>
      if n = cmdNumber then fetchCommand (BitVec.ofNat 8 v) s else .answer (.next (transact (.writeReg n v) s))
    | .reset => .answer (.next (transact .reset s))
    | .readReg n => .answer (.next (transact (.readReg n) s))
    | .loadVseq entries => .answer (.next (transact (.loadVseq entries) s))
    | .loadRom g chans => .answer (.next (transact (.loadRom g chans) s))
    | .loadRaw g w h data => .answer (.next (transact (.loadRaw g w h data) s))
    | .loadAligned k w h data => .answer (.next (transact (.loadAligned k w h data) s))
    | .readPlane b => .answer (.next (transact (.readPlane b) s))

/-- The host's next transaction, or nothing to do: the block waits (R241). -/
def fetchHost (s : State) : Fetch :=
  match s.inbox with
  | [] => .answer (.next s)
  | t :: rest => fetchTransaction t { s with inbox := rest }

/-- A `Reset` is the host's next transaction. -/
def resetPending (s : State) : Bool :=
  match s.inbox with
  | .reset :: _ => true
  | _ => false

/-- What the block does next: a pending `Reset` in any state (R240), else the running command, else the host. -/
def fetch (s : State) : Fetch :=
  if resetPending s then fetchHost s
  else
    match s.run with
    | .busy j => fetchBusy j s
    | .idle => fetchHost s
    | .fault => fetchHost s

/-- The host's next transaction is the issue of command word `w`, and no command runs. -/
def placeCommand (w : Byte) (s : State) : State :=
  { s with
    run := if s.run.isBusy then .idle else s.run
    inbox := commandIssue w :: s.inbox }

/-- A walk that stands at an entry: the one that runs, or a new one of group `Y`, in a geometry that has an entry. -/
def standAtEntry (s : State) : State :=
  match s.run with
  | .busy (.render _) => if atEntry s then s else startWalk s
  | .busy (.norm _) => startWalk s
  | .busy .compose => startWalk s
  | .idle => startWalk s
  | .fault => startWalk s
where
  /-- At least one line of at least one entry. -/
  oneEntry (c : ConfigRegs) : ConfigRegs :=
    { c with
      backLen := if lineWidth c = 0 then 1#16 else c.backLen
      numLines := if lineCount c = 0 then 1#16 else c.numLines }
  /-- A walk of group `Y` at its first entry. -/
  startWalk (s : State) : State :=
    { s with cfg := oneEntry s.cfg, run := .busy (.render .y), walk := walkStart (oneEntry s.cfg) }

/-- `VSEQ` holds `w` at index `i`. -/
def placeEntry (i : Nat) (w : Word16) (s : State) : State :=
  { s with
    vseq :=
      { valid := true
        len := if s.vseq.len.toNat ≤ i then BitVec.ofNat 32 (i + 1) else s.vseq.len
        mem := Memory.write s.vseq.mem i w } }

/-- The next entry the walk fetches is `w`, and no `Reset` is pending. -/
def placeVector (w : Word16) (s : State) : State :=
  let t := standAtEntry s
  { placeEntry t.walk.cursor w t with inbox := if resetPending s then [] else s.inbox }

end Sys2Proof.Machine
end

