-- ==== Sys2Proof/Machine/Step.lean ====
section
/-! DEFINITION. One step of the block: what is fetched, executed. And where an instruction is placed so that the next step
runs it (log 12). -/

namespace Sys2Proof.Machine

/-- One step: the fetched instruction is executed, or the step's answer is the fetch's own. -/
def step (s : State) : Host.Outcome State Fault Refusal :=
  match fetch s with
  | .instr i s' => exec i s'
  | .answer r => r

/-- `s` with the instruction of bits `w` where the next step fetches it: a row of 8 bits is a command word that the host
writes to `CMD`, a row of 16 bits is the entry at the cursor of a walk. -/
def State.withFetchWord (s : State) (nbits w : Nat) : State :=
  if nbits = 8 then placeCommand (BitVec.ofNat 8 w) s
  else if nbits = 16 then placeVector (BitVec.ofNat 16 w) s
  else s

end Sys2Proof.Machine
end

