-- ==== Sys2Proof/Machine/VectorDump.lean ====
section
/-! DEFINITION. Texts and pseudo-instructions, all on the host's side: the external reader of the vector dump that makes a
`HostLoadVseq` of a text (spec/20_memory.md R80 to R83), the assembly texts, and the expansions of `REGEN` and `RECOMPOSE`
(spec/30_encoding.md R108 to R110). The block itself never runs the reader (R6, R83). -/

namespace Sys2Proof.Machine

/-- Why the external reader loads nothing. -/
inductive DumpError where
  /-- `MalformedInputError(UNPARSABLE_TOKEN)` (R83, R201), with the number of the line, counted from 0, which is the model's
  own detail (DESIGN CHOICE, log 15). -/
  | unparsableToken (line : Nat)
  /-- A begin marker without its end marker: the spec describes no such dump (N10; log 15). -/
  | unterminatedHeader
deriving DecidableEq, Repr

/-- The value of a hexadecimal digit, upper or lower case (R83). -/
def hexDigit (c : Char) : Option Nat :=
  let n := c.toNat
  if 48 ≤ n ∧ n ≤ 57 then some (n - 48)
  else if 65 ≤ n ∧ n ≤ 70 then some (n - 55)
  else if 97 ≤ n ∧ n ≤ 102 then some (n - 87)
  else none

/-- The value of a sequence of hexadecimal digits after the value `acc`. -/
def hexValue : Nat → List Char → Option Nat
  | acc, [] => some acc
  | acc, c :: cs =>
    match hexDigit c with
    | some d => hexValue (16 * acc + d) cs
    | none => none

/-- A token parsed as an unsigned 16-bit hexadecimal value (R82, R83). -/
def parseToken (t : List Char) : Option Word16 :=
  match hexValue 0 t with
  | some v => if v ≤ 0xFFFF then some (BitVec.ofNat 16 v) else none
  | none => none

/-- The first whitespace-delimited token of a line; empty for a line that holds only whitespace (R82). DESIGN CHOICE (log
17): the spec does not say which characters are whitespace; the model takes those of `Char.isWhitespace`, which are space,
tab, carriage return and line feed. -/
def firstToken (line : List Char) : List Char :=
  (line.dropWhile Char.isWhitespace).takeWhile fun c => !c.isWhitespace

/-- The entries of the lines from number `n` on, outside or inside a marker pair (R81 to R83). -/
def dumpEntries (beginMark endMark : List Char) : Bool → Nat → List (List Char) → Except DumpError (List Word16)
  | false, _, [] => .ok []
  | true, _, [] => .error .unterminatedHeader
  | true, n, l :: ls => dumpEntries beginMark endMark (decide (firstToken l ≠ endMark)) (n + 1) ls
  | false, n, l :: ls =>
    if firstToken l = [] then dumpEntries beginMark endMark false (n + 1) ls
    else if firstToken l = beginMark then dumpEntries beginMark endMark true (n + 1) ls
    else
      match parseToken (firstToken l) with
      | none => .error (.unparsableToken n)
      | some v =>
        match dumpEntries beginMark endMark false (n + 1) ls with
        | .ok vs => .ok (v :: vs)
        | .error e => .error e

/-- The external reader: the dump's lines to the `HostLoadVseq` it performs, or nothing loaded (R80 to R83). The marker
strings are arguments, since the source does not give them (N10; log 15). -/
def readDump (beginMark endMark : List Char) (lines : List (List Char)) : Except DumpError Transaction :=
  match dumpEntries beginMark endMark false 0 lines with
  | .ok vs => .ok (.loadVseq vs)
  | .error e => .error e

/-- The hexadecimal digit of a value below 16, upper case. -/
def hexChar (d : BitVec 4) : Char := Char.ofNat (if d.toNat < 10 then 48 + d.toNat else 55 + d.toNat)

/-- A vector entry as text: four hexadecimal digits (R108); that they are upper case is the model's choice (DESIGN CHOICE,
log 18). -/
def vectorText (a : Word16) : List Char :=
  [hexChar (a.extractLsb' 12 4), hexChar (a.extractLsb' 8 4), hexChar (a.extractLsb' 4 4), hexChar (a.extractLsb' 0 4)]

/-- An instruction as text: a command's mnemonic, a vector entry's digits (R108). -/
def instrText : Instr → List Char
  | .renderY => "RENDER.Y".toList
  | .renderRY => "RENDER.RY".toList
  | .renderBY => "RENDER.BY".toList
  | .normY => "NORM.Y".toList
  | .normRY => "NORM.RY".toList
  | .normBY => "NORM.BY".toList
  | .compose => "COMPOSE".toList
  | .vfetch a => vectorText a

/-- `REGEN` (R109): the three raw planes drawn, in the order the spec writes. -/
def regen : List Transaction := [commandIssue 0x10#8, commandIssue 0x11#8, commandIssue 0x12#8]

/-- What the host reads after `REGEN`: the three intermediate images (R109). -/
def regenReads : List Transaction := [.readPlane (.raw .y), .readPlane (.raw .ry), .readPlane (.raw .bY)]

/-- A byte plane as a host holds it: the arguments `W`, `H` and `data` of a plane load (R75, R78). -/
structure PlaneData where
  w : Nat
  h : Nat
  data : List Byte
deriving DecidableEq, Repr

/-- `HostLoadRaw(Y, ...) ; HostLoadRaw(RY, ...) ; HostLoadRaw(BY, ...)` (R110). -/
def loadRawPlanes (p : PerGroup PlaneData) : List Transaction :=
  [.loadRaw .y p.y.w p.y.h p.y.data, .loadRaw .ry p.ry.w p.ry.h p.ry.data, .loadRaw .bY p.bY.w p.bY.h p.bY.data]

/-- `HostLoadAligned(k, ...)` of the plane that the external alignment makes, for input `k`, of the normalized plane of the
group that `k` derives from (R17, R75, R110). -/
def loadAlignedPlane (align : AlnSel → PlaneData → PlaneData) (normalized : PerGroup PlaneData) (k : AlnSel) :
    Transaction :=
  let p := align k (normalized.get (alignedSource k))
  .loadAligned k p.w p.h p.data

/-- `RECOMPOSE` (R110). `raw` holds the three raw planes to load, and is `none` where they are valid already from a `REGEN`;
`normalized` is what the three reads of `NRM` give the host; `align` is the external alignment, which the spec leaves to
the host (R6). -/
def recompose (raw : Option (PerGroup PlaneData)) (normalized : PerGroup PlaneData)
    (align : AlnSel → PlaneData → PlaneData) : List Transaction :=
  (match raw with
    | some p => loadRawPlanes p
    | none => [])
    ++ [commandIssue 0x20#8, commandIssue 0x21#8, commandIssue 0x22#8]
    ++ [.readPlane (.nrm .y), .readPlane (.nrm .ry), .readPlane (.nrm .bY)]
    ++ [AlnSel.y, .cb, .cr].map (loadAlignedPlane align normalized)
    ++ [commandIssue 0x30#8, .readPlane .rgb]

end Sys2Proof.Machine
end

