-- ==== Sys2Proof/Safety.lean ====
section
/-! DEFINITION. What counts as a safe state and a clean run (spec/60_exceptions.md R215, spec/70_reset_and_hazards.md
R251), and the notions that claims use: the well-formed state, the entries of a walk in their canonical order
(spec/40_field_walker.md R127) and where a pixel comes from (R128). -/

namespace Sys2Proof.Machine

/-- A run that has ended well so far: `STATE = IDLE`, `REFUSED = 0` (R251). -/
abbrev State.endedWell (s : State) : Prop := s.run = .idle ∧ s.refused = false

/-- A run that has ended badly: `STATE = FAULT` or `REFUSED = 1` (R251). -/
abbrev State.endedBadly (s : State) : Prop := s.run = .fault ∨ s.refused = true

/-- A memory that holds exactly the elements 0 to `n - 1`. -/
abbrev Memory.full {α : Type} (m : Memory α) (n : Nat) : Prop := m.map Prod.fst = List.range n

/-- A plane buffer holds its whole plane if its valid bit is 1, and no value if it is 0 (R25, R33, R64). -/
abbrev Buffer.Inv {α : Type} (b : Buffer α) : Prop :=
  (b.valid = true → Memory.full b.mem (dimSize b.dim)) ∧ (b.valid = false → b.dim = 0#32 ∧ b.mem.length = 0)

/-- The vector store holds `VSEQ_LEN` entries if `VSEQV` is 1, and no value if it is 0. -/
abbrev VseqStore.Inv (v : VseqStore) : Prop :=
  (v.valid = true → Memory.full v.mem v.len.toNat) ∧ (v.valid = false → v.len = 0#32 ∧ v.mem.length = 0)

/-- The bank of group `g` has its channels, all of the same nonzero length if `ROMV_g` is 1 (R34), without a value if it
is 0. -/
abbrev RomBank.Inv (g : Group) (b : RomBank) : Prop :=
  b.chans.length = cpg g
    ∧ (b.valid = true → 1 ≤ b.len.toNat ∧ ∀ m ∈ b.chans, Memory.full m b.len.toNat)
    ∧ (b.valid = false → b.len = 0#32 ∧ ∀ m ∈ b.chans, m.length = 0)

/-- `CAUSE`, bits 3:0 of `FAULT_CAUSE` (R32). -/
def FaultRecord.causeField (r : FaultRecord) : BitVec 4 := r.cause.extractLsb' 0 4

/-- The flags agree: no command runs between steps (R74), a fault is recorded in FAULT and in no other state (R24, R210),
and `REFUSED` stands with one of the four reason codes (R26, R32, R216). -/
abbrev State.flagsInv (s : State) : Prop :=
  s.run.isBusy = false
    ∧ (s.run = .fault → 1 ≤ s.faultRec.causeField.toNat ∧ s.faultRec.causeField.toNat ≤ 3)
    ∧ (s.run = .idle → s.faultRec = { cause := 0#16, index := 0#32, value := 0#32 })
    ∧ (s.refused = true ↔ s.refuseReason ≠ 0#8)
    ∧ s.refuseReason.toNat ≤ 4

/-- Every store and plane holds its whole content if its valid bit is 1, and no value if it is 0 (R25, R64). -/
abbrev State.buffersInv (s : State) : Prop :=
  s.vseq.Inv
    ∧ (s.rom.y.Inv .y ∧ s.rom.ry.Inv .ry ∧ s.rom.bY.Inv .bY)
    ∧ (s.raw.y.Inv ∧ s.raw.ry.Inv ∧ s.raw.bY.Inv)
    ∧ (s.nrm.y.Inv ∧ s.nrm.ry.Inv ∧ s.nrm.bY.Inv)
    ∧ (s.aln.y.Inv ∧ s.aln.cb.Inv ∧ s.aln.cr.Inv)
    ∧ s.rgb.Inv

/-- The well-formed state between two steps. -/
abbrev State.Inv (s : State) : Prop := s.flagsInv ∧ s.buffersInv

/-- Every memory of the state is in its canonical form. -/
abbrev State.memoriesWf (s : State) : Prop :=
  Memory.wf s.vseq.mem
    ∧ (∀ m ∈ s.rom.y.chans, Memory.wf m) ∧ (∀ m ∈ s.rom.ry.chans, Memory.wf m) ∧ (∀ m ∈ s.rom.bY.chans, Memory.wf m)
    ∧ Memory.wf s.raw.y.mem ∧ Memory.wf s.raw.ry.mem ∧ Memory.wf s.raw.bY.mem
    ∧ Memory.wf s.nrm.y.mem ∧ Memory.wf s.nrm.ry.mem ∧ Memory.wf s.nrm.bY.mem
    ∧ Memory.wf s.aln.y.mem ∧ Memory.wf s.aln.cb.mem ∧ Memory.wf s.aln.cr.mem
    ∧ Memory.wf s.rgb.mem

/-- The vector index of the entry that the walk reads at its step `t`: line `t / L / 2`, field `t / L % 2`,
position `t % L` (R125, R127). -/
def walkIndex (c : ConfigRegs) (t : Nat) : Nat :=
  t / lineWidth c % 2 * fieldLen c + t / lineWidth c / 2 * lineWidth c + t % lineWidth c

/-- Entry `i` holds a value, and it is in range for group `g`: below the group's channel length (R126). -/
def entryInRange (s : State) (g : Group) (i : Nat) : Bool :=
  match readVseq s i with
  | some a => decide (a.toNat < (s.rom.get g).len.toNat)
  | none => false

/-- Element `n` of `RAW[g]` holds a code that the transform of group `g` accepts (R163). -/
def pixelInRange (s : State) (g : Group) (n : Nat) : Bool :=
  match (s.raw.get g).read n with
  | some v => (levelTransform g s.cfg v).isSome
  | none => false

/-- The vector index that pixel (row `r`, column `x`) of `RAW[g]` comes from (R128). -/
def sourceIndex (c : ConfigRegs) (g : Group) (r x : Nat) : Nat :=
  r % 2 * fieldLen c + r / 2 * lineWidth c + x / cpg g

/-- The sample that `VSEQ[i]` fetches from channel `ch` of group `g` (R125). -/
def sampleAt (s : State) (g : Group) (i ch : Nat) : Option Byte :=
  match readVseq s i with
  | some a => readRom s g ch a.toNat
  | none => none

/-- The instruction that issues command `j`. -/
def jobInstr : Job → Instr
  | .render .y => .renderY
  | .render .ry => .renderRY
  | .render .bY => .renderBY
  | .norm .y => .normY
  | .norm .ry => .normRY
  | .norm .bY => .normBY
  | .compose => .compose

/-- The first check of command `j`, before any element (R208). -/
def jobCheck (j : Job) (s : State) : Option (FaultKind × Nat × Nat) :=
  match j with
  | .render g => renderCheck g s
  | .norm _ => none
  | .compose => composeCheck s

/-- The elementary step of command `j`. -/
def jobMicro (j : Job) (s : State) : Result :=
  match j with
  | .render g => renderMicro g s
  | .norm g => normMicro g s
  | .compose => composeMicro s

/-- What a word written to `CMD` makes the block do: the fetch's instruction executed, or its refusal (R32, R216). -/
def issue (w : Byte) (s : State) : Result :=
  match fetchCommand w s with
  | .instr i s' => exec i s'
  | .answer r => r

/-- The state without the model's own mailboxes and the working registers: what a host can observe (R21, R37). -/
def State.visible (s : State) : State :=
  { s with walk := State.reset.walk, normIdx := 0, compIdx := 0, inbox := [], outbox := [] }

end Sys2Proof.Machine
end

