-- ==== Sys2Proof/Certificates/Slice0/Obligations.lean ====
section
/-! DEFINITION. The statements for the provers. Each docstring names the rules of spec/ it formalises. -/

open Sys2Proof Sys2Proof.Machine

/-! ### Encoding -/

/-- The words of the opcode table, written out from their fields, decode to their instructions; every vector entry
decodes to `VFETCH` of its sixteen bits, in their order (R92 to R98, R100). -/
def Obligations.TableWordsDecodeToTheirInstructions : Prop :=
  decode (.cw8 0b00010000#8) = .ok .renderY ∧ decode (.cw8 0b00010001#8) = .ok .renderRY ∧
  decode (.cw8 0b00010010#8) = .ok .renderBY ∧ decode (.cw8 0b00100000#8) = .ok .normY ∧
  decode (.cw8 0b00100001#8) = .ok .normRY ∧ decode (.cw8 0b00100010#8) = .ok .normBY ∧
  decode (.cw8 0b00110000#8) = .ok .compose ∧
  ∀ w : BitVec 16, decode (.v16 w) = .ok (.vfetch w)

/-- The decoder of command words is total, and exactly seven words are commands; the decoded instruction encodes back to
the word (R106). -/
def Obligations.ExactlySevenCommandWordsAreLegal : Prop :=
  (∀ w : BitVec 8, (∃ i, decode (.cw8 w) = .ok i) ↔
    w ∈ [0x10#8, 0x11#8, 0x12#8, 0x20#8, 0x21#8, 0x22#8, 0x30#8]) ∧
  (∀ (w : BitVec 8) (i : Instr), decode (.cw8 w) = .ok i → encode i = .cw8 w)

/-- Decoding the encoding of a well-formed instruction gives it back, whatever its operand (R91 to R100). -/
def Obligations.DecodeOfEncodeIsTheInstruction : Prop :=
  ∀ i : Instr, i.wf = true → decode (encode i) = .ok i

/-! ### Reset, waiting, and what a step runs -/

/-- `State.reset` holds the values of R40: the seven constants, the two open range parameters (of which only 1..255 is
known, log 1), `STATUS`, records, lengths and dimensions 0, and no value in any store or plane. The working registers,
which R40 leaves without a value, are not claimed. -/
def Obligations.ResetLeavesTheStatedValues : Prop :=
  readReg State.reset 0 = 64#32 ∧ readReg State.reset 1 = 120#32 ∧ readReg State.reset 2 = 32#32 ∧
  readReg State.reset 3 = 313#32 ∧ readReg State.reset 4 = 41#32 ∧ readReg State.reset 5 = 181#32 ∧
  readReg State.reset 6 = 32#32 ∧
  (1 ≤ (readReg State.reset 7).toNat ∧ (readReg State.reset 7).toNat ≤ 255) ∧
  (1 ≤ (readReg State.reset 8).toNat ∧ (readReg State.reset 8).toNat ≤ 255) ∧
  (∀ n, 9 ≤ n → readReg State.reset n = 0#32) ∧
  State.reset.run = .idle ∧
  State.reset.vseq.mem = [] ∧
  (∀ g c, romChan State.reset g c = []) ∧
  (∀ g, (State.reset.raw.get g).mem = [] ∧ (State.reset.nrm.get g).mem = []) ∧
  (∀ k, (State.reset.aln.get k).mem = []) ∧ State.reset.rgb.mem = []

/-- `Reset`, in any state, puts every piece of state at its reset value (R240). Two parts of it are the model's choice: that the
working registers, to which R40 gives no value, are put at 0 (log 4), and that the model's own mailboxes stay (log 14). -/
def Obligations.ResetWorksFromEveryState : Prop :=
  ∀ (s : State) (rest : List Transaction), s.inbox = .reset :: rest →
    step s = .next { State.reset with inbox := rest, outbox := s.outbox }

/-- Without a host transaction a block that runs no command does nothing (R241). The inbox is the model's own (log 3). -/
def Obligations.WithoutTheHostNothingHappens : Prop :=
  ∀ s : State, s.inbox = [] → s.run.isBusy = false → step s = .next s

/-- A command word that the host writes to `CMD` is taken from the inbox and issued; one that decodes to a well-formed `i` is
run: the step is `exec i` on the state without the transaction (R2, R74, R216). The inbox is the model's own (log 3). -/
def Obligations.StepExecutesTheIssuedCommand : Prop :=
  ∀ (s : State) (w : Byte) (rest : List Transaction),
    s.inbox = commandIssue w :: rest → s.run.isBusy = false →
      step s = issue w { s with inbox := rest } ∧
      ∀ i : Instr, decode (.cw8 w) = .ok i → i.wf = true → step s = exec i { s with inbox := rest }

/-- While a walk runs that is not at its end, and no `Reset` is pending, the step fetches `VSEQ[vcur[f]]`, decodes it and
executes it (R22, R125; log 2). -/
def Obligations.StepExecutesTheFetchedVectorEntry : Prop :=
  ∀ (s : State) (g : Group) (w : Word16) (i : Instr),
    resetPending s = false → s.run = .busy (.render g) → s.walk.k < lineCount s.cfg →
    readVseq s s.walk.cursor = some w → decode (.v16 w) = .ok i → i.wf = true → step s = exec i s

/-! ### Acceptance and refusal -/

/-- The acceptance of a word `w` written to `CMD`, the whole table of R216 with the legality conditions of R31: the four
checks in order, the first that fails refusing the command with its reason, the command starting if none fails, and the
codes of the reasons. -/
def Obligations.CommandsAreAcceptedByTheTableOfChecks : Prop :=
  ∀ (s : State) (w : Byte),
    (s.run ≠ .idle → issue w s = .next (refuse .notIdle s)) ∧
    (s.run = .idle → w ∉ [0x10#8, 0x11#8, 0x12#8, 0x20#8, 0x21#8, 0x22#8, 0x30#8] →
      issue w s = .next (refuse .illegalCmd s)) ∧
    (∀ j : Job, s.run = .idle → decode (.cw8 w) = .ok (jobInstr j) →
      let legal : Prop := match j with
        | .render _ =>
          s.cfg.backLen.toNat ≤ 4095 ∧ s.cfg.rasterLen.toNat ≤ 4095 ∧ s.cfg.frontLen.toNat ≤ 4095 ∧
            1 ≤ s.cfg.numLines.toNat ∧ s.cfg.numLines.toNat ≤ 4095
        | .norm .y => s.cfg.yLow.toNat < s.cfg.yHigh.toNat
        | .norm .ry => 1 ≤ s.cfg.cHeadroom.toNat ∧ s.cfg.cHeadroom.toNat ≤ 128 ∧ 1 ≤ s.cfg.cRangeRY.toNat
        | .norm .bY => 1 ≤ s.cfg.cHeadroom.toNat ∧ s.cfg.cHeadroom.toNat ≤ 128 ∧ 1 ≤ s.cfg.cRangeBY.toNat
        | .compose => True
      let valid : Prop := match j with
        | .render g => (s.rom.get g).valid = true ∧ s.vseq.valid = true
        | .norm g => (s.raw.get g).valid = true
        | .compose => s.aln.y.valid = true ∧ s.aln.cb.valid = true ∧ s.aln.cr.valid = true
      (¬ legal → issue w s = .next (refuse .cfgIllegal s)) ∧
      (legal → ¬ valid → issue w s = .next (refuse .inputNotValid s)) ∧
      (legal → valid → issue w s = runBegun j (jobCheck j) (jobMicro j) (begin j s))) ∧
    (RefuseReason.notIdle.code = 1#8 ∧ RefuseReason.illegalCmd.code = 2#8 ∧
      RefuseReason.cfgIllegal.code = 3#8 ∧ RefuseReason.inputNotValid.code = 4#8)

/-- `refuse` does exactly this: `REFUSED` is set, `REFUSE_REASON` takes the code of the reason if it was 0, nothing else
changes (R215). -/
def Obligations.RefusalChangesOnlyTheRefusalRecord : Prop :=
  ∀ (r : RefuseReason) (s : State),
    refuse r s = { s with refused := true, refuseReason := (refuse r s).refuseReason } ∧
    (s.refuseReason = 0#8 → (refuse r s).refuseReason = r.code) ∧
    (s.refuseReason ≠ 0#8 → (refuse r s).refuseReason = s.refuseReason)

/-- `REFUSED` and the first reason stay until a `Reset`, over every step of every state (R26, R215). -/
def Obligations.RefusalIsStickyUntilReset : Prop :=
  ∀ s t : State, resetPending s = false → s.refused = true → s.refuseReason ≠ 0#8 → step s = .next t →
    t.refused = true ∧ t.refuseReason = s.refuseReason

/-! ### Unit U1 -/

/-- `RENDER.Y`, `RENDER.RY`, `RENDER.BY` complete where they are accepted, the sequence is long enough and the entries
are in range: the plane has `H` rows and `W` columns and every pixel is the sample of R128; nothing else changes but
`STATE` (as before, IDLE) and the working registers (R122, R128, R132 to R135). -/
def Obligations.RenderDrawsTheWholePlane : Prop :=
  ∀ (g : Group) (s : State),
    s.Inv → s.run = .idle → geometryLegal s.cfg = true → (s.rom.get g).valid = true → s.vseq.valid = true →
    vseqRequired s.cfg ≤ s.vseq.len.toNat →
    (∀ i, i < vseqRequired s.cfg → entryInRange s g i = true) →
    ∃ t, exec (jobInstr (.render g)) s = .next t ∧
      (t.raw.get g).valid = true ∧
      dimWidth (t.raw.get g).dim = lineWidth s.cfg * cpg g ∧
      dimHeight (t.raw.get g).dim = 2 * (lineCount s.cfg - 1) ∧
      Memory.full (t.raw.get g).mem (dimSize (t.raw.get g).dim) ∧
      (∀ r x, r < 2 * (lineCount s.cfg - 1) → x < lineWidth s.cfg * cpg g →
        ∃ v, (t.raw.get g).read (r * (lineWidth s.cfg * cpg g) + x) = some v ∧
          sampleAt s g (sourceIndex s.cfg g r x) (x % cpg g) = some v) ∧
      t = { s with raw := s.raw.set g (t.raw.get g), run := .idle, walk := t.walk }

/-- De-interlacing: after a completed `RENDER.g`, row `2k + f` is line `k` of field `f`, channel by channel and position by
position; so a row is even exactly when it comes from field 1, the entries below `FLEN` (R129). -/
def Obligations.RowsAlternateBetweenTheFields : Prop :=
  ∀ (g : Group) (s t : State),
    s.Inv → s.run = .idle → exec (jobInstr (.render g)) s = .next t → t.run = .idle →
    s.refused = false → t.refused = false →
    ∀ f k p c, f < 2 → k + 1 < lineCount s.cfg → p < lineWidth s.cfg → c < cpg g →
      (∃ v, (t.raw.get g).read ((2 * k + f) * (lineWidth s.cfg * cpg g) + (p * cpg g + c)) = some v ∧
        sampleAt s g (f * fieldLen s.cfg + k * lineWidth s.cfg + p) c = some v) ∧
      ((2 * k + f) % 2 = 0 ↔ f * fieldLen s.cfg + k * lineWidth s.cfg + p < fieldLen s.cfg)

/-- A vector sequence shorter than `2 * lineWidth * NUM_LINES` raises `MalformedInputError(SEQ_TOO_SHORT)` with the two
lengths, and nothing but the fault record, `STATE` and the destination changes (R123, R205, R206). -/
def Obligations.RenderFaultsOnAShortSequence : Prop :=
  ∀ (g : Group) (s : State),
    s.run = .idle → geometryLegal s.cfg = true → (s.rom.get g).valid = true → s.vseq.valid = true →
    s.vseq.len.toNat < 2 * (lineWidth s.cfg * lineCount s.cfg) →
    ∃ t, exec (jobInstr (.render g)) s = .next t ∧
      t.run = .fault ∧ (t.raw.get g).valid = false ∧ (t.raw.get g).dim = 0#32 ∧
      t.faultRec.cause = groupCode g ++ 1#4 ++ 1#4 ++ 1#4 ∧
      t.faultRec.index.toNat = s.vseq.len.toNat ∧
      t.faultRec.value.toNat = 2 * (lineWidth s.cfg * lineCount s.cfg) ∧
      t = { s with raw := s.raw.set g (t.raw.get g), run := .fault, faultRec := t.faultRec }

/-- The entry a `RENDER.g` reports is the first out of range in the order of the walk: line by line, field 1 before field 2,
the undrawn last line included (R126, R127, R130, R208). -/
def Obligations.RenderReportsTheFirstEntryOutOfRange : Prop :=
  ∀ (g : Group) (s : State) (q : Nat) (a : Word16),
    s.Inv → s.run = .idle → geometryLegal s.cfg = true → (s.rom.get g).valid = true → s.vseq.valid = true →
    vseqRequired s.cfg ≤ s.vseq.len.toNat → q < vseqRequired s.cfg →
    (∀ t, t < q → entryInRange s g (walkIndex s.cfg t) = true) →
    readVseq s (walkIndex s.cfg q) = some a → (s.rom.get g).len.toNat ≤ a.toNat →
    ∃ t, exec (jobInstr (.render g)) s = .next t ∧
      t.run = .fault ∧ (t.raw.get g).valid = false ∧ (t.raw.get g).dim = 0#32 ∧
      t.faultRec.cause = groupCode g ++ 1#4 ++ 2#4 ++ 1#4 ∧
      t.faultRec.index.toNat = walkIndex s.cfg q ∧ t.faultRec.value.toNat = a.toNat ∧
      t = { s with
        raw := s.raw.set g (t.raw.get g)
        run := .fault
        faultRec := t.faultRec
        walk := t.walk }

/-- The order of the walk: from its start, `t` advances bring the cursor to the `t`-th index of the three loops of R127 (line,
then field, then position), and after `VREQ` of them the walk is at its end (R22, R127). -/
def Obligations.WalkVisitsLinesFieldsAndPositionsInOrder : Prop :=
  ∀ c : ConfigRegs, 0 < lineWidth c →
    (∀ k f p, k < lineCount c → f < 2 → p < lineWidth c →
      ((fun w => Walk.advance w c)^[(2 * k + f) * lineWidth c + p] (walkStart c)).cursor
        = f * fieldLen c + k * lineWidth c + p) ∧
    ((fun w => Walk.advance w c)^[vseqRequired c] (walkStart c)).k = lineCount c ∧
    ((fun w => Walk.advance w c)^[vseqRequired c] (walkStart c)).vcur0 = fieldLen c ∧
    ((fun w => Walk.advance w c)^[vseqRequired c] (walkStart c)).vcur1 = vseqRequired c

/-- Entries at index `VREQ` and beyond have no effect: a `RENDER.g` on another store with the same first `VREQ` entries
does the same, completing or faulting (R123, I16). -/
def Obligations.SurplusVectorEntriesHaveNoEffect : Prop :=
  ∀ (g : Group) (s : State) (v : VseqStore),
    s.Inv → v.Inv → s.run = .idle → s.vseq.valid = true → v.valid = true →
    vseqRequired s.cfg ≤ s.vseq.len.toNat → vseqRequired s.cfg ≤ v.len.toNat →
    (∀ i, i < vseqRequired s.cfg → Memory.read v.mem i = Memory.read s.vseq.mem i) →
    ∃ t, exec (jobInstr (.render g)) s = .next t ∧
      exec (jobInstr (.render g)) { s with vseq := v } = .next { t with vseq := v }

/-- `VFETCH a` completes at an entry of a running walk when `a` is in range: one byte from every channel, in channel order, to
the next columns of row `2k + f` if the line is drawn, nothing stored if it is the last; the cursor and the loops of R127
advance; nothing else changes (R125, R130). -/
def Obligations.VfetchDrawsOneSamplePerChannel : Prop :=
  ∀ (s : State) (g : Group) (a : Word16),
    s.run = .busy (.render g) → s.walk.k < lineCount s.cfg → s.walk.p < lineWidth s.cfg →
    (s.rom.get g).valid = true → (s.rom.get g).Inv g → a.toNat < (s.rom.get g).len.toNat →
    ∃ t, exec (.vfetch a) s = .next t ∧
      t.walk = s.walk.advance s.cfg ∧
      (∀ i,
        (s.walk.k + 1 < lineCount s.cfg →
          (∀ c, c < cpg g →
            i = (2 * s.walk.k + s.walk.f.val) * (lineWidth s.cfg * cpg g) + (s.walk.p * cpg g + c) →
            Memory.read (t.raw.get g).mem i = readRom s g c a.toNat) ∧
          ((∀ c, c < cpg g →
              i ≠ (2 * s.walk.k + s.walk.f.val) * (lineWidth s.cfg * cpg g) + (s.walk.p * cpg g + c)) →
            Memory.read (t.raw.get g).mem i = Memory.read (s.raw.get g).mem i)) ∧
        (¬ s.walk.k + 1 < lineCount s.cfg →
          Memory.read (t.raw.get g).mem i = Memory.read (s.raw.get g).mem i)) ∧
      t = { s with
        raw := s.raw.set g { s.raw.get g with mem := (t.raw.get g).mem }
        walk := t.walk }

/-- `VFETCH a` with `a` at or beyond the group's channel length raises `MalformedInputError(ROM_INDEX_OUT_OF_RANGE)` with
the cursor and `a`, on every line, the undrawn one included; the destination is left without a value and nothing else
changes (R126, R206). -/
def Obligations.VfetchFaultsBeyondTheRomLength : Prop :=
  ∀ (s : State) (g : Group) (a : Word16),
    s.run = .busy (.render g) → s.walk.k < lineCount s.cfg → s.walk.p < lineWidth s.cfg →
    (s.rom.get g).len.toNat ≤ a.toNat →
    ∃ t, exec (.vfetch a) s = .next t ∧ t.run = .fault ∧
      (t.raw.get g).valid = false ∧ (t.raw.get g).dim = 0#32 ∧
      t.faultRec.cause = groupCode g ++ 1#4 ++ 2#4 ++ 1#4 ∧
      t.faultRec.index = BitVec.ofNat 32 s.walk.cursor ∧ t.faultRec.value.toNat = a.toNat ∧
      t = { s with raw := s.raw.set g (t.raw.get g), run := .fault, faultRec := t.faultRec }

/-- Where no walk stands at an entry, `VFETCH` has no move in the model (R125 defines it for `k < N`, `p < L` of a walk
alone; log 9). -/
def Obligations.VfetchOutsideAWalkHasNoMove : Prop :=
  ∀ (s : State) (a : Word16),
    (∀ g, s.run = .busy (.render g) → ¬ (s.walk.k < lineCount s.cfg ∧ s.walk.p < lineWidth s.cfg)) →
    exec (.vfetch a) s = .refused .walkNotRunning

/-! ### Unit U2 -/

/-- `SaturateY` for a legal window, in natural arithmetic: codes below `low` overshoot, codes above `high` are clamped to
0, the others map to `(high - raw) * 255 div (high - low)`; `low` maps to exactly 255 and `high` to 0 (R152 to R155,
R157). -/
def Obligations.LumaTransformIsTheStatedFormula : Prop :=
  ∀ low high raw : Byte, low.toNat < high.toNat →
    (raw.toNat < low.toNat → saturateY low high raw = none) ∧
    (high.toNat < raw.toNat → saturateY low high raw = some 0#8) ∧
    (low.toNat ≤ raw.toNat → raw.toNat ≤ high.toNat →
      ∃ v, saturateY low high raw = some v ∧
        v.toNat = (high.toNat - raw.toNat) * 255 / (high.toNat - low.toNat)) ∧
    saturateY low high low = some 255#8 ∧ saturateY low high high = some 0#8

/-- `SaturateY` is monotonically non-increasing in the raw code, over all codes from `low` up (R157). -/
def Obligations.LumaTransformIsNonIncreasing : Prop :=
  ∀ (low high raw1 raw2 v1 v2 : Byte), low.toNat < high.toNat → raw1.toNat < raw2.toNat →
    saturateY low high raw1 = some v1 → saturateY low high raw2 = some v2 → v2.toNat ≤ v1.toNat

/-- `SaturateChroma` for legal registers: it overshoots exactly when the exact rescaled deviation `(128 - raw) * amp /
range` exceeds `amp = 128 - headroom` in magnitude; otherwise the result is the floor of 128 plus that value, in exact
rational arithmetic (R158 to R161). -/
def Obligations.ChromaTransformIsTheStatedFormula : Prop :=
  ∀ headroom range raw : Byte, 1 ≤ headroom.toNat → headroom.toNat ≤ 128 → 1 ≤ range.toNat →
    let scaled : ℚ := ((128 : ℚ) - raw.toNat) * (128 - headroom.toNat) / range.toNat
    (saturateChroma headroom range raw = none ↔ (128 : ℚ) - headroom.toNat < |scaled|) ∧
    (|scaled| ≤ (128 : ℚ) - headroom.toNat →
      ∃ v, saturateChroma headroom range raw = some v ∧ (v.toNat : ℤ) = ⌊(128 : ℚ) + scaled⌋)

/-- The properties of the chroma transform: 128 is a fixed point, every result lies within `128 - headroom` of 128, and the
transform is non-increasing (R162 a, b, c). -/
def Obligations.ChromaTransformKeepsNeutralRangeAndOrder : Prop :=
  ∀ headroom range : Byte, 1 ≤ headroom.toNat → headroom.toNat ≤ 128 → 1 ≤ range.toNat →
    saturateChroma headroom range 128#8 = some 128#8 ∧
    (∀ raw v, saturateChroma headroom range raw = some v →
      headroom.toNat ≤ v.toNat ∧ v.toNat ≤ 256 - headroom.toNat) ∧
    (∀ raw1 raw2 v1 v2, raw1.toNat < raw2.toNat → saturateChroma headroom range raw1 = some v1 →
      saturateChroma headroom range raw2 = some v2 → v2.toNat ≤ v1.toNat)

/-- The luma table at the reset window 41, 181 (R156): `OVR` up to 40, `((181 - raw) * 51) div 28` from 41 to 181, then 0. -/
def Obligations.LumaTableAtTheResetWindow : Prop :=
  ∀ raw : Byte,
    levelTransform .y State.reset.cfg raw
      = if raw.toNat ≤ 40 then none
        else if raw.toNat ≤ 181 then some (BitVec.ofNat 8 ((181 - raw.toNat) * 51 / 28))
        else some 0#8

/-- `NORM.Y`, `NORM.RY`, `NORM.BY` complete where they are accepted and every code of the plane is in range: the normalized
plane has the shape of the raw one, every element is the group's transform of the raw element at the same index, and
nothing else changes but the pixel index; `RAW[g]` is not changed (R150, R163 to R166). -/
def Obligations.NormTransformsEveryPixel : Prop :=
  ∀ (g : Group) (s : State),
    s.Inv → s.run = .idle → configLegal (.norm g) s.cfg = true → (s.raw.get g).valid = true →
    (∀ n, n < dimSize (s.raw.get g).dim → pixelInRange s g n = true) →
    ∃ t, exec (jobInstr (.norm g)) s = .next t ∧
      (t.nrm.get g).valid = true ∧ (t.nrm.get g).dim = (s.raw.get g).dim ∧
      Memory.full (t.nrm.get g).mem (dimSize (s.raw.get g).dim) ∧
      (∀ n, n < dimSize (s.raw.get g).dim → ∃ raw v,
        (s.raw.get g).read n = some raw ∧
        (match g with
          | .y => saturateY s.cfg.yLow s.cfg.yHigh raw
          | .ry => saturateChroma s.cfg.cHeadroom s.cfg.cRangeRY raw
          | .bY => saturateChroma s.cfg.cHeadroom s.cfg.cRangeBY raw) = some v ∧
        (t.nrm.get g).read n = some v) ∧
      t = { s with nrm := s.nrm.set g (t.nrm.get g), run := .idle, normIdx := t.normIdx }

/-- The first pixel, in element order, that the transform does not accept ends `NORM.g` with
`CalibrationOvershootError`, its element index and its raw code; `NRM[g]` holds no value, `RAW[g]` is not changed
(R155, R161, R163, R205, R208). -/
def Obligations.NormReportsTheFirstOvershoot : Prop :=
  ∀ (g : Group) (s : State) (q : Nat) (raw : Byte),
    s.Inv → s.run = .idle → configLegal (.norm g) s.cfg = true → (s.raw.get g).valid = true →
    q < dimSize (s.raw.get g).dim → (∀ n, n < q → pixelInRange s g n = true) →
    (s.raw.get g).read q = some raw → levelTransform g s.cfg raw = none →
    ∃ t, exec (jobInstr (.norm g)) s = .next t ∧
      t.run = .fault ∧ (t.nrm.get g).valid = false ∧ (t.nrm.get g).dim = 0#32 ∧
      t.faultRec.cause = groupCode g ++ 2#4 ++ (if g = .y then 1#4 else 2#4) ++ 2#4 ∧
      t.faultRec.index.toNat = q ∧ t.faultRec.value.toNat = raw.toNat ∧
      t = { s with
        nrm := s.nrm.set g (t.nrm.get g)
        run := .fault
        faultRec := t.faultRec
        normIdx := t.normIdx }

/-! ### Unit U3 -/

/-- color_matrix and channel_clamp in exact rationals: each channel is the floor of its exact value clamped to [0, 255], for
every byte triple (R182, R184). -/
def Obligations.PixelIsTheClampedExactMatrix : Prop :=
  ∀ y cb cr : Byte,
    let Y : ℚ := y.toNat
    let db : ℚ := (cb.toNat : ℚ) - 128
    let dr : ℚ := (cr.toNat : ℚ) - 128
    let R : ℚ := Y + 1402 / 1000 * dr
    let G : ℚ := Y - 1772 / 1000 * ((114 / 1000) / (587 / 1000)) * db - 1402 / 1000 * ((299 / 1000) / (587 / 1000)) * dr
    let B : ℚ := Y + 1772 / 1000 * db
    ((composePixel y cb cr).r.toNat : ℤ) = ⌊max 0 (min 255 R)⌋ ∧
    ((composePixel y cb cr).g.toNat : ℤ) = ⌊max 0 (min 255 G)⌋ ∧
    ((composePixel y cb cr).b.toNat : ℤ) = ⌊max 0 (min 255 B)⌋

/-- Neutral chroma gives the grey of `Y`; `R` does not depend on `Cb`, `B` not on `Cr`; each channel is non-decreasing in `Y`
(R188). -/
def Obligations.PixelGreyAxisAndMonotoneInLuma : Prop :=
  (∀ y : Byte, composePixel y 128#8 128#8 = { r := y, g := y, b := y }) ∧
  (∀ y cb cb' cr : Byte, (composePixel y cb cr).r = (composePixel y cb' cr).r) ∧
  (∀ y cb cr cr' : Byte, (composePixel y cb cr).b = (composePixel y cb cr').b) ∧
  (∀ y y' cb cr : Byte, y.toNat ≤ y'.toNat →
    (composePixel y cb cr).r.toNat ≤ (composePixel y' cb cr).r.toNat ∧
    (composePixel y cb cr).g.toNat ≤ (composePixel y' cb cr).g.toNat ∧
    (composePixel y cb cr).b.toNat ≤ (composePixel y' cb cr).b.toNat)

/-- The source's round trip, with its raw value corrected (C1): with neutral chroma 128 and any legal registers, the raw luma
code `Y_LOW` composes to white and `Y_HIGH` to black (R157, R162, R188). -/
def Obligations.BrightestRawLumaComposesToWhite : Prop :=
  ∀ low high headroom rangeRY rangeBY : Byte, low.toNat < high.toNat → 1 ≤ headroom.toNat → headroom.toNat ≤ 128 →
    1 ≤ rangeRY.toNat → 1 ≤ rangeBY.toNat →
    ∃ white black cb cr, saturateY low high low = some white ∧ saturateY low high high = some black ∧
      saturateChroma headroom rangeBY 128#8 = some cb ∧ saturateChroma headroom rangeRY 128#8 = some cr ∧
      composePixel white cb cr = { r := 255#8, g := 255#8, b := 255#8 } ∧
      composePixel black cb cr = { r := 0#8, g := 0#8, b := 0#8 }

/-- `COMPOSE` completes where it is accepted and the three aligned planes share their dimensions: element `n` of `RGB` is
the clamped matrix of the three elements `n`, and nothing else changes but the pixel index (R180, R187, R189). -/
def Obligations.ComposeCombinesTheAlignedPlanes : Prop :=
  ∀ s : State,
    s.Inv → s.run = .idle → s.aln.y.valid = true → s.aln.cb.valid = true → s.aln.cr.valid = true →
    s.aln.cb.dim = s.aln.y.dim → s.aln.cr.dim = s.aln.y.dim →
    ∃ t, exec .compose s = .next t ∧
      t.rgb.valid = true ∧ t.rgb.dim = s.aln.y.dim ∧ Memory.full t.rgb.mem (dimSize s.aln.y.dim) ∧
      (∀ n, n < dimSize s.aln.y.dim → ∃ y cb cr,
        s.aln.y.read n = some y ∧ s.aln.cb.read n = some cb ∧ s.aln.cr.read n = some cr ∧
        t.rgb.read n = some (composePixel y cb cr)) ∧
      t = { s with rgb := t.rgb, run := .idle, compIdx := t.compIdx }

/-- The geometry check of `COMPOSE`, its four tests in order, each with its record; the fault leaves `RGB` without a value and
changes nothing else (R181, R205). -/
def Obligations.ComposeFaultsOnUnequalDimensions : Prop :=
  ∀ s : State,
    s.run = .idle → s.aln.y.valid = true → s.aln.cb.valid = true → s.aln.cr.valid = true →
    ¬ (s.aln.cb.dim = s.aln.y.dim ∧ s.aln.cr.dim = s.aln.y.dim) →
    ∃ t, exec .compose s = .next t ∧ t.run = .fault ∧ t.rgb.valid = false ∧ t.rgb.dim = 0#32 ∧
      (if dimWidth s.aln.cb.dim ≠ dimWidth s.aln.y.dim then
        t.faultRec.cause = 0x2313#16 ∧ t.faultRec.index.toNat = dimWidth s.aln.y.dim ∧
          t.faultRec.value.toNat = dimWidth s.aln.cb.dim
      else if dimHeight s.aln.cb.dim ≠ dimHeight s.aln.y.dim then
        t.faultRec.cause = 0x2323#16 ∧ t.faultRec.index.toNat = dimHeight s.aln.y.dim ∧
          t.faultRec.value.toNat = dimHeight s.aln.cb.dim
      else if dimWidth s.aln.cr.dim ≠ dimWidth s.aln.y.dim then
        t.faultRec.cause = 0x1313#16 ∧ t.faultRec.index.toNat = dimWidth s.aln.y.dim ∧
          t.faultRec.value.toNat = dimWidth s.aln.cr.dim
      else
        t.faultRec.cause = 0x1323#16 ∧ t.faultRec.index.toNat = dimHeight s.aln.y.dim ∧
          t.faultRec.value.toNat = dimHeight s.aln.cr.dim) ∧
      t = { s with rgb := t.rgb, run := .fault, faultRec := t.faultRec }

/-! ### Faults -/

/-- `raise` while command `j` runs: the fault record is written, `STATE` becomes FAULT, the valid bit and the dimension
register of the destination are 0, and no other buffer, valid bit or register changes (R206). -/
def Obligations.RaiseWritesTheRecordAndStops : Prop :=
  ∀ (k : FaultKind) (index value : Nat) (j : Job) (s : State), s.run = .busy j →
    let t := raise k index value s
    t.run = .fault ∧ t.faultRec = { cause := k.word, index := BitVec.ofNat 32 index, value := BitVec.ofNat 32 value } ∧
    (match j with
      | .render g => (t.raw.get g).valid = false ∧ (t.raw.get g).dim = 0#32 ∧
          t = { s with run := .fault, faultRec := t.faultRec, raw := s.raw.set g (t.raw.get g) }
      | .norm g => (t.nrm.get g).valid = false ∧ (t.nrm.get g).dim = 0#32 ∧
          t = { s with run := .fault, faultRec := t.faultRec, nrm := s.nrm.set g (t.nrm.get g) }
      | .compose => t.rgb.valid = false ∧ t.rgb.dim = 0#32 ∧
          t = { s with run := .fault, faultRec := t.faultRec, rgb := t.rgb })

/-- `FAULT_CAUSE` of every fault: `CAUSE`, `SUBCAUSE`, `STAGE` and `GROUP` in their places (R32, R205). -/
def Obligations.FaultCauseWordsFollowTheTable : Prop :=
  ∀ g : Group,
    (FaultKind.seqTooShort g).word = groupCode g ++ 1#4 ++ 1#4 ++ 1#4 ∧
    (FaultKind.romIndexOutOfRange g).word = groupCode g ++ 1#4 ++ 2#4 ++ 1#4 ∧
    (FaultKind.calibrationOvershoot g).word = groupCode g ++ 2#4 ++ (if g = .y then 1#4 else 2#4) ++ 2#4 ∧
    (FaultKind.widthMismatch g).word = groupCode g ++ 3#4 ++ 1#4 ++ 3#4 ∧
    (FaultKind.heightMismatch g).word = groupCode g ++ 3#4 ++ 2#4 ++ 3#4 ∧
    groupCode .y = 0#4 ∧ groupCode .ry = 1#4 ∧ groupCode .bY = 2#4

/-- No step but a `Reset` leaves FAULT, and none changes the fault record, a register, a store or a plane: in FAULT only the
refusal record (and the model's own mailboxes) can change (R209, R210, R74). -/
def Obligations.FaultIsLeftOnlyByReset : Prop :=
  ∀ s t : State, s.run = .fault → resetPending s = false → step s = .next t →
    t = { s with
      refused := t.refused
      refuseReason := t.refuseReason
      inbox := t.inbox
      outbox := t.outbox }

/-! ### The host interface -/

/-- `HostLoadVseq` in IDLE: the entries, their number, the valid bit, and nothing else (R76). -/
def Obligations.LoadVseqStoresTheEntries : Prop :=
  ∀ (s : State) (entries : List Word16), s.run = .idle → (Transaction.loadVseq entries).wf = true →
    let t := transact (.loadVseq entries) s
    t.vseq.valid = true ∧ t.vseq.len.toNat = entries.length ∧ t.vseq.Inv ∧
    (∀ i, readVseq t i = entries[i]?) ∧ t = { s with vseq := t.vseq }

/-- `HostLoadRom` in IDLE: every channel, the common length, the valid bit, and nothing else (R77). -/
def Obligations.LoadRomStoresTheChannels : Prop :=
  ∀ (s : State) (g : Group) (chans : List (List Byte)), s.run = .idle → (Transaction.loadRom g chans).wf = true →
    let t := transact (.loadRom g chans) s
    (t.rom.get g).valid = true ∧ (t.rom.get g).Inv g ∧
    (∀ c data, chans[c]? = some data →
      (t.rom.get g).len.toNat = data.length ∧ ∀ a, readRom t g c a = data[a]?) ∧
    t = { s with rom := s.rom.set g (t.rom.get g) }

/-- `HostLoadRaw` and `HostLoadAligned` in IDLE: the plane in row-major order, its dimensions, the valid bit, and nothing else:
no other valid bit changes (R75, R78, C10). -/
def Obligations.LoadPlaneStoresThePlane : Prop :=
  ∀ (s : State) (w h : Nat) (data : List Byte), s.run = .idle → planeShapeOk w h data = true →
    (∀ g : Group, let t := transact (.loadRaw g w h data) s
      (t.raw.get g).valid = true ∧ dimWidth (t.raw.get g).dim = w ∧ dimHeight (t.raw.get g).dim = h ∧
      (t.raw.get g).Inv ∧ (∀ n, (t.raw.get g).read n = data[n]?) ∧
      t = { s with raw := s.raw.set g (t.raw.get g) }) ∧
    (∀ k : AlnSel, let t := transact (.loadAligned k w h data) s
      (t.aln.get k).valid = true ∧ dimWidth (t.aln.get k).dim = w ∧ dimHeight (t.aln.get k).dim = h ∧
      (t.aln.get k).Inv ∧ (∀ n, (t.aln.get k).read n = data[n]?) ∧
      t = { s with aln := s.aln.set k (t.aln.get k) })

/-- `HostReadPlane` of every valid `RAW[g]`, `NRM[g]` and `RGB`, in IDLE and in FAULT, of a state whose buffers hold their
whole planes (a part of `State.Inv`): it returns the dimensions and the whole content in row-major order, and changes
nothing but the host's mailbox; of a raw plane just loaded, the content is the data loaded (R63, R67, R74, R78, R79; log
3). -/
def Obligations.ReadPlaneReturnsWhatWasLoaded : Prop :=
  (∀ s : State, s.buffersInv → s.run = .idle ∨ s.run = .fault →
    (∀ g, (s.raw.get g).valid = true → ∃ data : List Byte,
      (∀ n, data[n]? = (s.raw.get g).read n) ∧
      data.length = dimWidth (s.raw.get g).dim * dimHeight (s.raw.get g).dim ∧
      transact (.readPlane (.raw g)) s = { s with
        outbox := s.outbox
          ++ [.plane (.raw g) (dimWidth (s.raw.get g).dim) (dimHeight (s.raw.get g).dim) data] }) ∧
    (∀ g, (s.nrm.get g).valid = true → ∃ data : List Byte,
      (∀ n, data[n]? = (s.nrm.get g).read n) ∧
      data.length = dimWidth (s.nrm.get g).dim * dimHeight (s.nrm.get g).dim ∧
      transact (.readPlane (.nrm g)) s = { s with
        outbox := s.outbox
          ++ [.plane (.nrm g) (dimWidth (s.nrm.get g).dim) (dimHeight (s.nrm.get g).dim) data] }) ∧
    (s.rgb.valid = true → ∃ data : List Rgb,
      (∀ n, data[n]? = s.rgb.read n) ∧ data.length = dimWidth s.rgb.dim * dimHeight s.rgb.dim ∧
      transact (.readPlane .rgb) s = { s with
        outbox := s.outbox ++ [.image (dimWidth s.rgb.dim) (dimHeight s.rgb.dim) data] })) ∧
  (∀ (s : State) (g : Group) (w h : Nat) (data : List Byte), s.run = .idle → planeShapeOk w h data = true →
    let t := transact (.loadRaw g w h data) s
    transact (.readPlane (.raw g)) t = { t with outbox := t.outbox ++ [.plane (.raw g) w h data] })

/-- A read of a buffer whose valid bit is 0 returns nothing and changes nothing; it does not set `REFUSED` (R79). -/
def Obligations.ReadPlaneOfAnInvalidBufferReturnsNothing : Prop :=
  ∀ (s : State) (g : Group),
    ((s.raw.get g).valid = false → transact (.readPlane (.raw g)) s = s) ∧
    ((s.nrm.get g).valid = false → transact (.readPlane (.nrm g)) s = s) ∧
    (s.rgb.valid = false → transact (.readPlane .rgb) s = s)

/-- Writes of registers other than `CMD`, and loads, have no effect in BUSY and FAULT (R74, R246); a write of `CMD` is a
command issue, which FAULT refuses (CommandsAreAcceptedByTheTableOfChecks). -/
def Obligations.HostWritesHaveNoEffectOutsideIdle : Prop :=
  ∀ s : State, s.run ≠ .idle →
    (∀ n v, n ≠ cmdNumber → transact (.writeReg n v) s = s) ∧ (∀ entries, transact (.loadVseq entries) s = s) ∧
    (∀ g chans, transact (.loadRom g chans) s = s) ∧ (∀ g w h data, transact (.loadRaw g w h data) s = s) ∧
    (∀ k w h data, transact (.loadAligned k w h data) s = s)

/-- A write of a register other than `CMD` in IDLE: a value that fits is what a later read of that register returns, every
other register keeps its value, and nothing but the configuration registers changes; a write to a read-only register or to
a number that does not exist changes nothing (R30, R32, R33, R74). A write of `CMD` is a command issue
(StepExecutesTheIssuedCommand, CommandsAreAcceptedByTheTableOfChecks). Values that do not fit are left out by the model's
choice (log 8). -/
def Obligations.RegisterWritesStoreTheValue : Prop :=
  ∀ (s : State) (n v : Nat), s.run = .idle → n ≠ cmdNumber → writeFits n v = true →
    let t := transact (.writeReg n v) s
    (n < 9 → (readReg t n).toNat = v) ∧ (∀ m, m ≠ n → readReg t m = readReg s m) ∧
    (9 ≤ n → t = s) ∧ t = { s with cfg := t.cfg }

/-- `STATUS`, bit by bit; unassigned bits are zero (R24, R32). -/
def Obligations.StatusBitsAreTheFlags : Prop :=
  ∀ s : State,
    (readReg s 17).extractLsb' 0 2 = s.run.code ∧
    (∀ i, i < 32 → 2 ≤ i → (readReg s 17).getLsbD i =
      match i with
      | 2 => s.refused
      | 4 => s.rom.y.valid | 5 => s.rom.ry.valid | 6 => s.rom.bY.valid
      | 7 => s.vseq.valid
      | 8 => s.raw.y.valid | 9 => s.raw.ry.valid | 10 => s.raw.bY.valid
      | 12 => s.nrm.y.valid | 13 => s.nrm.ry.valid | 14 => s.nrm.bY.valid
      | 16 => s.aln.y.valid | 17 => s.aln.cb.valid | 18 => s.aln.cr.valid
      | 20 => s.rgb.valid
      | _ => false) ∧
    RunState.idle.code = 0#2 ∧ (∀ j, (RunState.busy j).code = 1#2) ∧ RunState.fault.code = 2#2

/-- Register reads, number by number: the configuration registers, the fault record and the refusal reason read what the state
holds; the length and dimension registers read the length, or the width in `[31:16]` and the height in `[15:0]`, of their
buffer while its valid bit is 1, and 0 while it is 0; `CMD` and numbers that do not exist read 0; `STATUS` is
StatusBitsAreTheFlags. A read in IDLE or FAULT hands the value to the host's mailbox and changes nothing else; in BUSY only
`STATUS` is read (R30, R32, R33, R74, R79; log 3). That the reply has 32 bits for the narrower registers too is the model's
choice (log 16). -/
def Obligations.RegisterReadsFollowTheMap : Prop :=
  ∀ s : State,
    ((readReg s 0).toNat = s.cfg.backLen.toNat ∧ (readReg s 1).toNat = s.cfg.rasterLen.toNat ∧
      (readReg s 2).toNat = s.cfg.frontLen.toNat ∧ (readReg s 3).toNat = s.cfg.numLines.toNat ∧
      (readReg s 4).toNat = s.cfg.yLow.toNat ∧ (readReg s 5).toNat = s.cfg.yHigh.toNat ∧
      (readReg s 6).toNat = s.cfg.cHeadroom.toNat ∧ (readReg s 7).toNat = s.cfg.cRangeRY.toNat ∧
      (readReg s 8).toNat = s.cfg.cRangeBY.toNat) ∧
    ((readReg s 18).toNat = s.faultRec.cause.toNat ∧ readReg s 19 = s.faultRec.index ∧
      readReg s 20 = s.faultRec.value ∧ (readReg s 21).toNat = s.refuseReason.toNat) ∧
    (∀ n, (9 ≤ n ∧ n ≤ 16) ∨ n = 22 ∨ n = 23 ∨ (28 ≤ n ∧ n ≤ 31) ∨ 42 ≤ n → readReg s n = 0#32) ∧
    readReg s 24 = (if s.vseq.valid = true then s.vseq.len else 0#32) ∧
    (∀ g, readReg s (25 + (groupCode g).toNat) = if (s.rom.get g).valid = true then (s.rom.get g).len else 0#32) ∧
    (∀ (n : Nat) (valid : Bool) (dim : BitVec 32),
      (∃ g, n = 32 + (groupCode g).toNat ∧ valid = (s.raw.get g).valid ∧ dim = (s.raw.get g).dim) ∨
        (∃ g, n = 35 + (groupCode g).toNat ∧ valid = (s.nrm.get g).valid ∧ dim = (s.nrm.get g).dim) ∨
        (n = 38 ∧ valid = s.aln.y.valid ∧ dim = s.aln.y.dim) ∨
        (n = 39 ∧ valid = s.aln.cb.valid ∧ dim = s.aln.cb.dim) ∨
        (n = 40 ∧ valid = s.aln.cr.valid ∧ dim = s.aln.cr.dim) ∨
        (n = 41 ∧ valid = s.rgb.valid ∧ dim = s.rgb.dim) →
      (valid = true →
        ((readReg s n).extractLsb' 16 16).toNat = dimWidth dim ∧
        ((readReg s n).extractLsb' 0 16).toNat = dimHeight dim) ∧
      (valid = false → readReg s n = 0#32)) ∧
    (∀ n, s.run.isBusy = false ∨ n = 17 →
      transact (.readReg n) s = { s with outbox := s.outbox ++ [.reg n (readReg s n)] }) ∧
    (∀ n, s.run.isBusy = true → n ≠ 17 → transact (.readReg n) s = s)

/-- The host's next transaction, when no command runs: a well-formed one that is no command issue is performed, one that is not
well formed has no move (R74, R75, R77, D22; logs 3, 6). That a register write of a value too wide for the register is not
well formed is the model's choice (log 8). -/
def Obligations.StepServesTheHostsTransaction : Prop :=
  ∀ (s : State) (t : Transaction) (rest : List Transaction), s.inbox = t :: rest → s.run.isBusy = false →
    (t.wf = true → (∀ v, t ≠ .writeReg 16 v) → step s = .next (transact t { s with inbox := rest })) ∧
    (t.wf = false → step s = .refused .illFormedTransaction)

/-! ### Whole-machine rules -/

/-- The well-formed state (valid bits say exactly which buffers hold their whole content, the flags agree, no command runs) holds
right after reset. -/
def Obligations.ResetIsWellFormed : Prop := State.reset.Inv ∧ State.reset.memoriesWf

/-- Every step keeps the well-formed state: buffers hold their whole content exactly when their valid bit is 1, a fault is
recorded in FAULT and nowhere else, `REFUSED` stands with a reason, and BUSY is never exposed (R24 to R26, R64, R74,
R207). -/
def Obligations.StepKeepsTheStateWellFormed : Prop :=
  ∀ s t : State, s.Inv → step s = .next t → t.Inv

/-- Every step, also an elementary step of a running command, keeps every memory in its canonical form. -/
def Obligations.StepKeepsMemoriesCanonical : Prop :=
  ∀ s t : State, s.memoriesWf → step s = .next t → t.memoriesWf

/-- From a well-formed state a step never reads an element that holds no value, which the model would answer with a stop of its
own (log 5): it answers a next state, or it refuses an ill-formed transaction (R64, R216). That such a transaction is
answered by a refusal is the model's reading (log 6), and that a register write of a too wide value is one is its choice
(log 8). -/
def Obligations.WellFormedStatesNeverReadAMissingValue : Prop :=
  ∀ s : State, s.Inv → (∃ t, step s = .next t) ∨ step s = .refused .illFormedTransaction

/-- A command as one step is its elementary steps: from the begun command, stepping as often as it has elements, and once more to
complete, gives the state that the command gives as one step, completed or faulted (R21, R70, R74; log 2). -/
def Obligations.CommandIsItsElementarySteps : Prop :=
  ∀ (j : Job) (s t : State),
    s.Inv → s.inbox = [] → rejection j s = none → jobCheck j s = none → exec (jobInstr j) s = .next t →
    Host.Core.run Sys2Proof.core (elementCount j s + 1) (initWork j (begin j s)) = .next t

/-- An instruction changes no buffer but its destination, and of the registers at most `STATE`, the two records and the working
registers: for every command, accepted or refused, completed or faulted, and for `VFETCH` (R62, R120, R150, R180). -/
def Obligations.InstructionsChangeOnlyTheirDestination : Prop :=
  (∀ (j : Job) (s t : State), exec (jobInstr j) s = .next t →
    clearDest j t = { clearDest j s with
      run := t.run
      refused := t.refused
      refuseReason := t.refuseReason
      faultRec := t.faultRec
      walk := t.walk
      normIdx := t.normIdx
      compIdx := t.compIdx }) ∧
  (∀ (g : Group) (a : Word16) (s t : State), s.run = .busy (.render g) → exec (.vfetch a) s = .next t →
    clearDest (.render g) t = { clearDest (.render g) s with run := t.run, faultRec := t.faultRec, walk := t.walk })

/-- Commands of one unit on different groups commute: if both complete in both orders, the states that a host can observe are the
same (R71). -/
def Obligations.GroupsMayBeProcessedInEitherOrder : Prop :=
  ∀ (unit : Group → Job) (g h : Group) (s t1 t2 u1 u2 : State),
    (unit = .render ∨ unit = .norm) → g ≠ h → s.Inv → s.refused = false →
    exec (jobInstr (unit g)) s = .next t1 → exec (jobInstr (unit h)) t1 = .next t2 →
    exec (jobInstr (unit h)) s = .next u1 → exec (jobInstr (unit g)) u1 = .next u2 →
    t2.endedWell → u2.endedWell → t2.visible = u2.visible

/-- The external reader of the vector dump: the lines of a text without marker lines load, in file order, the values of their
first tokens, and lines without a token add nothing (R82). Which characters are whitespace is the model's choice (log 17). -/
def Obligations.DumpReaderLoadsTheTokensInOrder : Prop :=
  ∀ (beginMark endMark : List Char) (lines : List (List Char)) (values : List Word16),
    (∀ l ∈ lines, firstToken l ≠ beginMark) →
    (lines.map firstToken).filterMap (fun t => if t = [] then none else some (parseToken t)) = values.map some →
    readDump beginMark endMark lines = .ok (.loadVseq values)

/-- The 4-digit hexadecimal text of a vector entry reads back as the entry (R82, R108). That the text has upper-case digits is
the model's choice (log 18). -/
def Obligations.FourDigitEntriesReadBack : Prop :=
  ∀ a : Word16, parseToken (vectorText a) = some a ∧ firstToken (vectorText a) = vectorText a
end

