-- ==== Sys2Proof/Laws/Memory.lean ====
section
/-! SUPPORT. What reading, writing and loading a memory do: read after write, the canonical form, and memories that hold
exactly the elements 0 to n - 1. -/

namespace Sys2Proof.Machine

variable {α : Type}

@[simp] theorem Memory.read_nil (a : Nat) : Memory.read ([] : Memory α) a = none := rfl

theorem Memory.read_cons (b : Nat) (v : α) (m : Memory α) (a : Nat) :
    Memory.read ((b, v) :: m) a = if a = b then some v else Memory.read m a := rfl

@[simp] theorem Memory.read_write_same (m : Memory α) (a : Nat) (v : α) :
    Memory.read (Memory.write m a v) a = some v := by
  induction m with
  | nil => simp [Memory.write, Memory.read]
  | cons head rest ih =>
    obtain ⟨b, w⟩ := head
    simp only [Memory.write]
    split
    · simp [Memory.read]
    · split
      · simp [Memory.read]
      · rename_i hne
        simp [Memory.read, hne, ih]

theorem Memory.read_write_other (m : Memory α) {a c : Nat} (v : α) (h : c ≠ a) :
    Memory.read (Memory.write m a v) c = Memory.read m c := by
  induction m with
  | nil => simp [Memory.write, Memory.read, h]
  | cons head rest ih =>
    obtain ⟨b, w⟩ := head
    simp only [Memory.write]
    split
    · simp [Memory.read, h]
    · split
      · rename_i heq
        subst heq
        simp [Memory.read, h]
      · simp [Memory.read, ih]

/-- The indices of a memory after a write: those it had, and the one written. -/
theorem Memory.mem_keys_write (m : Memory α) (a : Nat) (v : α) (k : Nat) :
    k ∈ (Memory.write m a v).map Prod.fst ↔ k = a ∨ k ∈ m.map Prod.fst := by
  induction m with
  | nil => simp [Memory.write]
  | cons head rest ih =>
    obtain ⟨b, w⟩ := head
    simp only [Memory.write]
    split
    · simp
    · split
      · rename_i heq
        simp [heq]
      · simp only [List.map_cons, List.mem_cons, ih]
        tauto

theorem Memory.wf_nil : Memory.wf ([] : Memory α) := List.Pairwise.nil

theorem Memory.wf_write {m : Memory α} (h : Memory.wf m) (a : Nat) (v : α) : Memory.wf (Memory.write m a v) := by
  induction m with
  | nil => simp [Memory.write, Memory.wf]
  | cons head rest ih =>
    obtain ⟨b, w⟩ := head
    have hcons : (∀ k ∈ rest.map Prod.fst, b < k) ∧ Memory.wf rest := List.pairwise_cons.mp h
    simp only [Memory.write]
    split
    · rename_i hab
      refine List.pairwise_cons.mpr ⟨?_, h⟩
      intro k hk
      rcases List.mem_cons.mp hk with rfl | hk
      · exact hab
      · exact lt_trans hab (hcons.1 k hk)
    · split
      · rename_i heq
        subst heq
        exact h
      · refine List.pairwise_cons.mpr ⟨?_, ih hcons.2⟩
        intro k hk
        rcases (Memory.mem_keys_write rest a v k).mp hk with rfl | hk
        · show b < k
          omega
        · exact hcons.1 k hk

theorem Memory.keys_ofListFrom (vs : List α) (k : Nat) :
    (Memory.ofListFrom k vs).map Prod.fst = List.range' k vs.length := by
  induction vs generalizing k with
  | nil => rfl
  | cons v vs ih => simp [Memory.ofListFrom, List.range'_succ, ih]

theorem Memory.full_ofList (vs : List α) : Memory.full (Memory.ofList vs) vs.length := by
  simp [Memory.full, Memory.ofList, Memory.keys_ofListFrom, List.range_eq_range']

theorem Memory.wf_ofList (vs : List α) : Memory.wf (Memory.ofList vs) := by
  have h := Memory.full_ofList vs
  rw [Memory.wf, h]
  exact List.pairwise_lt_range

theorem Memory.wf_of_full {m : Memory α} {n : Nat} (h : Memory.full m n) : Memory.wf m := by
  rw [Memory.wf, h]
  exact List.pairwise_lt_range

/-- An index that is listed holds a value, and no other does. -/
theorem Memory.read_isSome_iff (m : Memory α) (a : Nat) :
    (Memory.read m a).isSome = true ↔ a ∈ m.map Prod.fst := by
  induction m with
  | nil => simp
  | cons head rest ih =>
    obtain ⟨b, w⟩ := head
    rw [Memory.read_cons]
    split
    · rename_i heq
      simp [heq]
    · rename_i hne
      simp only [List.map_cons, List.mem_cons, hne, false_or]
      exact ih

/-- A full memory holds a value at each of its elements. -/
theorem Memory.read_of_full {m : Memory α} {n a : Nat} (h : Memory.full m n) (ha : a < n) :
    ∃ v, Memory.read m a = some v := by
  refine Option.isSome_iff_exists.mp ((Memory.read_isSome_iff m a).mpr ?_)
  rw [h]
  exact List.mem_range.mpr ha

theorem Memory.read_none_of_full {m : Memory α} {n a : Nat} (h : Memory.full m n) (ha : n ≤ a) :
    Memory.read m a = none := by
  cases hr : Memory.read m a with
  | none => rfl
  | some v =>
    have hm : a ∈ m.map Prod.fst := (Memory.read_isSome_iff m a).mp (by simp [hr])
    rw [h] at hm
    exact absurd (List.mem_range.mp hm) (by omega)

/-- A write beyond every listed index appends. -/
theorem Memory.write_append (m : Memory α) (a : Nat) (v : α) (h : ∀ k ∈ m.map Prod.fst, k < a) :
    Memory.write m a v = m ++ [(a, v)] := by
  induction m with
  | nil => rfl
  | cons head rest ih =>
    obtain ⟨b, w⟩ := head
    have hb : b < a := h b (by simp)
    have hrest : Memory.write rest a v = rest ++ [(a, v)] :=
      ih fun k hk => h k (by simp only [List.map_cons, List.mem_cons]; exact Or.inr hk)
    simp only [Memory.write]
    rw [if_neg (by omega), if_neg (by omega), hrest]
    rfl

/-- The element after the last makes a full memory one longer. -/
theorem Memory.full_write {m : Memory α} {n : Nat} (h : Memory.full m n) (v : α) :
    Memory.full (Memory.write m n v) (n + 1) := by
  have hm : (m.map Prod.fst) = List.range n := h
  have hlt : ∀ k ∈ m.map Prod.fst, k < n := by
    intro k hk
    rw [hm] at hk
    exact List.mem_range.mp hk
  show (Memory.write m n v).map Prod.fst = List.range (n + 1)
  rw [Memory.write_append m n v hlt, List.map_append, hm, List.range_succ]
  rfl

theorem Memory.read_ofListFrom (vs : List α) (k a : Nat) :
    Memory.read (Memory.ofListFrom k vs) (k + a) = vs[a]? := by
  induction vs generalizing k a with
  | nil => rfl
  | cons v vs ih =>
    simp only [Memory.ofListFrom, Memory.read_cons]
    cases a with
    | zero => simp
    | succ a =>
      have h := ih (k + 1) a
      rw [if_neg (by omega)]
      have hk : k + (a + 1) = k + 1 + a := by omega
      rw [hk, h]
      simp

@[simp] theorem Memory.read_ofList (vs : List α) (a : Nat) : Memory.read (Memory.ofList vs) a = vs[a]? := by
  have h := Memory.read_ofListFrom vs 0 a
  rwa [Nat.zero_add] at h

@[simp] theorem Memory.contents_ofListFrom (vs : List α) (k : Nat) :
    Memory.contents (Memory.ofListFrom k vs) = vs := by
  induction vs generalizing k with
  | nil => rfl
  | cons v vs ih =>
    have h := ih (k + 1)
    simp only [Memory.contents] at h
    simp [Memory.ofListFrom, Memory.contents, h]

@[simp] theorem Memory.contents_ofList (vs : List α) : Memory.contents (Memory.ofList vs) = vs :=
  Memory.contents_ofListFrom vs 0

/-- Reading skips a first element of another index. -/
theorem Memory.read_cons_other {b a : Nat} (v : α) (m : Memory α) (h : a ≠ b) :
    Memory.read ((b, v) :: m) a = Memory.read m a := by rw [Memory.read_cons, if_neg h]

/-- The contents of a memory whose indices are consecutive from `k` are its reads, in order. -/
theorem Memory.getElem?_contents_range' (m : Memory α) (k a : Nat) (h : m.map Prod.fst = List.range' k m.length) :
    (Memory.contents m)[a]? = Memory.read m (k + a) := by
  induction m generalizing k a with
  | nil => rfl
  | cons head rest ih =>
    obtain ⟨b, v⟩ := head
    simp only [List.map_cons, List.length_cons, List.range'_succ, List.cons.injEq] at h
    obtain ⟨rfl, h⟩ := h
    cases a with
    | zero => simp [Memory.contents, Memory.read_cons]
    | succ a =>
      rw [Memory.read_cons_other v rest (by omega), ← Nat.add_assoc, Nat.add_right_comm]
      exact ih (b + 1) a h

/-- The contents of a full memory are its reads, in order. -/
theorem Memory.getElem?_contents {m : Memory α} {n : Nat} (h : Memory.full m n) (a : Nat) :
    (Memory.contents m)[a]? = Memory.read m a := by
  have hn : m.length = n := by simpa using congrArg List.length h
  simpa using Memory.getElem?_contents_range' m 0 a (by rw [h, hn, List.range_eq_range'])

/-- A full memory has as many elements as its size. -/
theorem Memory.length_contents {m : Memory α} {n : Nat} (h : Memory.full m n) : (Memory.contents m).length = n := by
  simpa [Memory.contents] using congrArg List.length h

/-- Two canonical memories with the same indices and the same reads are equal. -/
theorem Memory.ext_of_read {m m' : Memory α} (hw : Memory.wf m) (hk : m.map Prod.fst = m'.map Prod.fst)
    (hr : ∀ a, Memory.read m a = Memory.read m' a) : m = m' := by
  induction m generalizing m' with
  | nil =>
    cases m' with
    | nil => rfl
    | cons head rest => simp at hk
  | cons head rest ih =>
    obtain ⟨b, v⟩ := head
    cases m' with
    | nil => simp at hk
    | cons head' rest' =>
      obtain ⟨b', v'⟩ := head'
      simp only [List.map_cons, List.cons.injEq] at hk
      obtain ⟨rfl, hk⟩ := hk
      have hv : v = v' := by
        have := hr b
        simpa [Memory.read_cons] using this
      subst hv
      obtain ⟨hlt, hw'⟩ := List.pairwise_cons.mp hw
      have hrest : rest = rest' := by
        refine ih hw' hk fun a => ?_
        by_cases ha : a = b
        · subst ha
          have h1 : ¬ (Memory.read rest a).isSome = true := fun h =>
            absurd (hlt a ((Memory.read_isSome_iff rest a).mp h)) (lt_irrefl a)
          have h2 : ¬ (Memory.read rest' a).isSome = true := fun h =>
            absurd (hlt a (hk ▸ (Memory.read_isSome_iff rest' a).mp h)) (lt_irrefl a)
          simp only [Option.not_isSome_iff_eq_none] at h1 h2
          rw [h1, h2]
        · have := hr a
          rwa [Memory.read_cons_other v rest ha, Memory.read_cons_other v rest' ha] at this
      rw [hrest]

/-- Two full memories of the same size with the same reads below it are equal. -/
theorem Memory.ext_of_full {m m' : Memory α} {n : Nat} (h : Memory.full m n) (h' : Memory.full m' n)
    (hr : ∀ a, a < n → Memory.read m a = Memory.read m' a) : m = m' := by
  refine Memory.ext_of_read (Memory.wf_of_full h) (h.trans h'.symm) fun a => ?_
  by_cases ha : a < n
  · exact hr a ha
  · rw [Memory.read_none_of_full h (by omega), Memory.read_none_of_full h' (by omega)]

/-- A read inside a valid buffer's plane. -/
theorem Buffer.read_of_inv {b : Buffer α} (h : b.Inv) (hv : b.valid = true) {n : Nat} (hn : n < dimSize b.dim) :
    ∃ v, b.read n = some v := by
  obtain ⟨v, hr⟩ := Memory.read_of_full (h.1 hv) hn
  exact ⟨v, by simp [Buffer.read, hv, hn, hr]⟩

theorem Buffer.read_eq {b : Buffer α} (hv : b.valid = true) {n : Nat} (hn : n < dimSize b.dim) :
    b.read n = Memory.read b.mem n := by simp [Buffer.read, hv, hn]

/-- What a host gets of a valid buffer is what the units read of it (R63, R79). -/
theorem Buffer.getElem?_contents {b : Buffer α} (h : b.Inv) (hv : b.valid = true) (n : Nat) :
    (Memory.contents b.mem)[n]? = b.read n := by
  rw [Memory.getElem?_contents (h.1 hv)]
  by_cases hn : n < dimSize b.dim
  · exact (Buffer.read_eq hv hn).symm
  · rw [Memory.read_none_of_full (h.1 hv) (by omega), Buffer.read, if_neg fun hc => hn hc.2]

theorem readVseq_of_inv {s : State} (h : s.vseq.Inv) (hv : s.vseq.valid = true) {i : Nat}
    (hi : i < s.vseq.len.toNat) : ∃ a, readVseq s i = some a := by
  obtain ⟨a, hr⟩ := Memory.read_of_full (h.1 hv) hi
  exact ⟨a, by simp [readVseq, hv, hi, hr]⟩

theorem RomBank.inv_get {s : State} (h : s.rom.y.Inv .y ∧ s.rom.ry.Inv .ry ∧ s.rom.bY.Inv .bY) (g : Group) :
    (s.rom.get g).Inv g := by
  cases g
  · exact h.1
  · exact h.2.1
  · exact h.2.2

theorem readRom_of_inv {s : State} {g : Group} (h : (s.rom.get g).Inv g) (hv : (s.rom.get g).valid = true) {c a : Nat}
    (hc : c < cpg g) (ha : a < (s.rom.get g).len.toNat) : ∃ v, readRom s g c a = some v := by
  have hlen : c < (s.rom.get g).chans.length := by rw [h.1]; exact hc
  have hmem : romChan s g c ∈ (s.rom.get g).chans := by
    simp only [romChan, List.getD_eq_getElem _ _ hlen]
    exact List.getElem_mem hlen
  obtain ⟨v, hr⟩ := Memory.read_of_full ((h.2.1 hv).2 _ hmem) ha
  exact ⟨v, by simp [readRom, hv, ha, hr]⟩

end Sys2Proof.Machine
end

