-- ==== Sys2Proof/Laws/State.lean ====
section
/-! SUPPORT. One lemma per field per named update of the state, so that no proof unfolds a record update: selecting by
group, refusing, clearing a destination, beginning, initialising, completing, raising, delivering and resetting. -/

namespace Sys2Proof.Machine

@[simp] theorem PerGroup.get_set_same {α : Type} (x : PerGroup α) (g : Group) (v : α) : (x.set g v).get g = v := by
  cases g <;> rfl

theorem PerGroup.get_set_other {α : Type} (x : PerGroup α) {g h : Group} (v : α) (hne : h ≠ g) :
    (x.set g v).get h = x.get h := by
  cases g <;> cases h <;> first | rfl | exact absurd rfl hne

@[simp] theorem PerGroup.set_set {α : Type} (x : PerGroup α) (g : Group) (v w : α) :
    (x.set g v).set g w = x.set g w := by
  cases g <;> rfl

@[simp] theorem PerGroup.set_get {α : Type} (x : PerGroup α) (g : Group) : x.set g (x.get g) = x := by
  cases g <;> rfl

@[simp] theorem PerAln.get_set_same {α : Type} (x : PerAln α) (k : AlnSel) (v : α) : (x.set k v).get k = v := by
  cases k <;> rfl

theorem PerAln.get_set_other {α : Type} (x : PerAln α) {k l : AlnSel} (v : α) (hne : l ≠ k) :
    (x.set k v).get l = x.get l := by
  cases k <;> cases l <;> first | rfl | exact absurd rfl hne

/-- A property of every group's selection, after one selection is replaced. -/
theorem PerGroup.forall_set {α : Type} {P : Group → α → Prop} {x : PerGroup α} {g : Group} {v : α}
    (h : ∀ k, P k (x.get k)) (hv : P g v) : ∀ k, P k ((x.set g v).get k) := by
  intro k
  by_cases hk : k = g
  · subst hk
    rw [PerGroup.get_set_same]
    exact hv
  · rw [PerGroup.get_set_other x v hk]
    exact h k

/-- A property of the three fields of a per-group value is one of every group's selection. -/
theorem PerGroup.and_iff {α : Type} {P : Group → α → Prop} (x : PerGroup α) :
    (P .y x.y ∧ P .ry x.ry ∧ P .bY x.bY) ↔ ∀ g, P g (x.get g) := by
  refine ⟨fun h g => ?_, fun h => ⟨h .y, h .ry, h .bY⟩⟩
  cases g
  · exact h.1
  · exact h.2.1
  · exact h.2.2

/-- A property of the three fields of a per-plane value is one of every selection. -/
theorem PerAln.and_iff {α : Type} {P : α → Prop} (x : PerAln α) :
    (P x.y ∧ P x.cb ∧ P x.cr) ↔ ∀ k, P (x.get k) := by
  refine ⟨fun h k => ?_, fun h => ⟨h .y, h .cb, h .cr⟩⟩
  cases k
  · exact h.1
  · exact h.2.1
  · exact h.2.2

/-- A property of every aligned plane, after one is replaced. -/
theorem PerAln.forall_set {α : Type} {P : α → Prop} {x : PerAln α} {k : AlnSel} {v : α}
    (h : ∀ l, P (x.get l)) (hv : P v) : ∀ l, P ((x.set k v).get l) := by
  intro l
  by_cases hl : l = k
  · subst hl
    rw [PerAln.get_set_same]
    exact hv
  · rw [PerAln.get_set_other x v hl]
    exact h l


/-! ### Refusing -/

@[simp] theorem refuse_cfg (r : RefuseReason) (s : State) : (refuse r s).cfg = s.cfg := rfl
@[simp] theorem refuse_run (r : RefuseReason) (s : State) : (refuse r s).run = s.run := rfl
@[simp] theorem refuse_faultRec (r : RefuseReason) (s : State) : (refuse r s).faultRec = s.faultRec := rfl
@[simp] theorem refuse_vseq (r : RefuseReason) (s : State) : (refuse r s).vseq = s.vseq := rfl
@[simp] theorem refuse_rom (r : RefuseReason) (s : State) : (refuse r s).rom = s.rom := rfl
@[simp] theorem refuse_raw (r : RefuseReason) (s : State) : (refuse r s).raw = s.raw := rfl
@[simp] theorem refuse_nrm (r : RefuseReason) (s : State) : (refuse r s).nrm = s.nrm := rfl
@[simp] theorem refuse_aln (r : RefuseReason) (s : State) : (refuse r s).aln = s.aln := rfl
@[simp] theorem refuse_rgb (r : RefuseReason) (s : State) : (refuse r s).rgb = s.rgb := rfl
@[simp] theorem refuse_walk (r : RefuseReason) (s : State) : (refuse r s).walk = s.walk := rfl
@[simp] theorem refuse_normIdx (r : RefuseReason) (s : State) : (refuse r s).normIdx = s.normIdx := rfl
@[simp] theorem refuse_compIdx (r : RefuseReason) (s : State) : (refuse r s).compIdx = s.compIdx := rfl
@[simp] theorem refuse_inbox (r : RefuseReason) (s : State) : (refuse r s).inbox = s.inbox := rfl
@[simp] theorem refuse_outbox (r : RefuseReason) (s : State) : (refuse r s).outbox = s.outbox := rfl
@[simp] theorem refuse_refused (r : RefuseReason) (s : State) : (refuse r s).refused = true := rfl
theorem refuse_refuseReason (r : RefuseReason) (s : State) :
    (refuse r s).refuseReason = if s.refuseReason = 0#8 then r.code else s.refuseReason := rfl

/-! ### Clearing a destination -/

@[simp] theorem clearDest_cfg (j : Job) (s : State) : (clearDest j s).cfg = s.cfg := by cases j <;> rfl
@[simp] theorem clearDest_run (j : Job) (s : State) : (clearDest j s).run = s.run := by cases j <;> rfl
@[simp] theorem clearDest_refused (j : Job) (s : State) : (clearDest j s).refused = s.refused := by cases j <;> rfl
@[simp] theorem clearDest_refuseReason (j : Job) (s : State) : (clearDest j s).refuseReason = s.refuseReason := by cases j <;> rfl
@[simp] theorem clearDest_faultRec (j : Job) (s : State) : (clearDest j s).faultRec = s.faultRec := by cases j <;> rfl
@[simp] theorem clearDest_vseq (j : Job) (s : State) : (clearDest j s).vseq = s.vseq := by cases j <;> rfl
@[simp] theorem clearDest_rom (j : Job) (s : State) : (clearDest j s).rom = s.rom := by cases j <;> rfl
@[simp] theorem clearDest_aln (j : Job) (s : State) : (clearDest j s).aln = s.aln := by cases j <;> rfl
@[simp] theorem clearDest_walk (j : Job) (s : State) : (clearDest j s).walk = s.walk := by cases j <;> rfl
@[simp] theorem clearDest_normIdx (j : Job) (s : State) : (clearDest j s).normIdx = s.normIdx := by cases j <;> rfl
@[simp] theorem clearDest_compIdx (j : Job) (s : State) : (clearDest j s).compIdx = s.compIdx := by cases j <;> rfl
@[simp] theorem clearDest_inbox (j : Job) (s : State) : (clearDest j s).inbox = s.inbox := by cases j <;> rfl
@[simp] theorem clearDest_outbox (j : Job) (s : State) : (clearDest j s).outbox = s.outbox := by cases j <;> rfl
@[simp] theorem clearDest_render_raw (g : Group) (s : State) : (clearDest (.render g) s).raw = s.raw.set g Buffer.empty := rfl
@[simp] theorem clearDest_render_nrm (g : Group) (s : State) : (clearDest (.render g) s).nrm = s.nrm := rfl
@[simp] theorem clearDest_render_rgb (g : Group) (s : State) : (clearDest (.render g) s).rgb = s.rgb := rfl
@[simp] theorem clearDest_norm_raw (g : Group) (s : State) : (clearDest (.norm g) s).raw = s.raw := rfl
@[simp] theorem clearDest_norm_nrm (g : Group) (s : State) : (clearDest (.norm g) s).nrm = s.nrm.set g Buffer.empty := rfl
@[simp] theorem clearDest_norm_rgb (g : Group) (s : State) : (clearDest (.norm g) s).rgb = s.rgb := rfl
@[simp] theorem clearDest_compose_raw (s : State) : (clearDest .compose s).raw = s.raw := rfl
@[simp] theorem clearDest_compose_nrm (s : State) : (clearDest .compose s).nrm = s.nrm := rfl
@[simp] theorem clearDest_compose_rgb (s : State) : (clearDest .compose s).rgb = Buffer.empty := rfl

/-! ### Beginning -/

@[simp] theorem begin_cfg (j : Job) (s : State) : (begin j s).cfg = s.cfg := by cases j <;> rfl
@[simp] theorem begin_run (j : Job) (s : State) : (begin j s).run = .busy j := rfl
@[simp] theorem begin_refused (j : Job) (s : State) : (begin j s).refused = s.refused := by cases j <;> rfl
@[simp] theorem begin_refuseReason (j : Job) (s : State) : (begin j s).refuseReason = s.refuseReason := by cases j <;> rfl
@[simp] theorem begin_faultRec (j : Job) (s : State) : (begin j s).faultRec = s.faultRec := by cases j <;> rfl
@[simp] theorem begin_vseq (j : Job) (s : State) : (begin j s).vseq = s.vseq := by cases j <;> rfl
@[simp] theorem begin_rom (j : Job) (s : State) : (begin j s).rom = s.rom := by cases j <;> rfl
@[simp] theorem begin_raw (j : Job) (s : State) : (begin j s).raw = (clearDest j s).raw := rfl
@[simp] theorem begin_nrm (j : Job) (s : State) : (begin j s).nrm = (clearDest j s).nrm := rfl
@[simp] theorem begin_aln (j : Job) (s : State) : (begin j s).aln = s.aln := by cases j <;> rfl
@[simp] theorem begin_rgb (j : Job) (s : State) : (begin j s).rgb = (clearDest j s).rgb := rfl
@[simp] theorem begin_walk (j : Job) (s : State) : (begin j s).walk = s.walk := by cases j <;> rfl
@[simp] theorem begin_normIdx (j : Job) (s : State) : (begin j s).normIdx = s.normIdx := by cases j <;> rfl
@[simp] theorem begin_compIdx (j : Job) (s : State) : (begin j s).compIdx = s.compIdx := by cases j <;> rfl
@[simp] theorem begin_inbox (j : Job) (s : State) : (begin j s).inbox = s.inbox := by cases j <;> rfl
@[simp] theorem begin_outbox (j : Job) (s : State) : (begin j s).outbox = s.outbox := by cases j <;> rfl

/-! ### Initialising the working registers -/

@[simp] theorem initWork_cfg (j : Job) (s : State) : (initWork j s).cfg = s.cfg := by cases j <;> rfl
@[simp] theorem initWork_run (j : Job) (s : State) : (initWork j s).run = s.run := by cases j <;> rfl
@[simp] theorem initWork_refused (j : Job) (s : State) : (initWork j s).refused = s.refused := by cases j <;> rfl
@[simp] theorem initWork_refuseReason (j : Job) (s : State) : (initWork j s).refuseReason = s.refuseReason := by cases j <;> rfl
@[simp] theorem initWork_faultRec (j : Job) (s : State) : (initWork j s).faultRec = s.faultRec := by cases j <;> rfl
@[simp] theorem initWork_vseq (j : Job) (s : State) : (initWork j s).vseq = s.vseq := by cases j <;> rfl
@[simp] theorem initWork_rom (j : Job) (s : State) : (initWork j s).rom = s.rom := by cases j <;> rfl
@[simp] theorem initWork_raw (j : Job) (s : State) : (initWork j s).raw = s.raw := by cases j <;> rfl
@[simp] theorem initWork_nrm (j : Job) (s : State) : (initWork j s).nrm = s.nrm := by cases j <;> rfl
@[simp] theorem initWork_aln (j : Job) (s : State) : (initWork j s).aln = s.aln := by cases j <;> rfl
@[simp] theorem initWork_rgb (j : Job) (s : State) : (initWork j s).rgb = s.rgb := by cases j <;> rfl
@[simp] theorem initWork_inbox (j : Job) (s : State) : (initWork j s).inbox = s.inbox := by cases j <;> rfl
@[simp] theorem initWork_outbox (j : Job) (s : State) : (initWork j s).outbox = s.outbox := by cases j <;> rfl
@[simp] theorem initWork_render_walk (g : Group) (s : State) : (initWork (.render g) s).walk = walkStart s.cfg := rfl
@[simp] theorem initWork_render_normIdx (g : Group) (s : State) : (initWork (.render g) s).normIdx = s.normIdx := rfl
@[simp] theorem initWork_render_compIdx (g : Group) (s : State) : (initWork (.render g) s).compIdx = s.compIdx := rfl
@[simp] theorem initWork_norm_walk (g : Group) (s : State) : (initWork (.norm g) s).walk = s.walk := rfl
@[simp] theorem initWork_norm_normIdx (g : Group) (s : State) : (initWork (.norm g) s).normIdx = 0 := rfl
@[simp] theorem initWork_norm_compIdx (g : Group) (s : State) : (initWork (.norm g) s).compIdx = s.compIdx := rfl
@[simp] theorem initWork_compose_walk (s : State) : (initWork .compose s).walk = s.walk := rfl
@[simp] theorem initWork_compose_normIdx (s : State) : (initWork .compose s).normIdx = s.normIdx := rfl
@[simp] theorem initWork_compose_compIdx (s : State) : (initWork .compose s).compIdx = 0 := rfl

/-! ### Completing -/

@[simp] theorem complete_cfg (j : Job) (s : State) : (complete j s).cfg = s.cfg := by cases j <;> rfl
@[simp] theorem complete_run (j : Job) (s : State) : (complete j s).run = .idle := by cases j <;> rfl
@[simp] theorem complete_refused (j : Job) (s : State) : (complete j s).refused = s.refused := by cases j <;> rfl
@[simp] theorem complete_refuseReason (j : Job) (s : State) : (complete j s).refuseReason = s.refuseReason := by cases j <;> rfl
@[simp] theorem complete_faultRec (j : Job) (s : State) : (complete j s).faultRec = s.faultRec := by cases j <;> rfl
@[simp] theorem complete_vseq (j : Job) (s : State) : (complete j s).vseq = s.vseq := by cases j <;> rfl
@[simp] theorem complete_rom (j : Job) (s : State) : (complete j s).rom = s.rom := by cases j <;> rfl
@[simp] theorem complete_aln (j : Job) (s : State) : (complete j s).aln = s.aln := by cases j <;> rfl
@[simp] theorem complete_walk (j : Job) (s : State) : (complete j s).walk = s.walk := by cases j <;> rfl
@[simp] theorem complete_normIdx (j : Job) (s : State) : (complete j s).normIdx = s.normIdx := by cases j <;> rfl
@[simp] theorem complete_compIdx (j : Job) (s : State) : (complete j s).compIdx = s.compIdx := by cases j <;> rfl
@[simp] theorem complete_inbox (j : Job) (s : State) : (complete j s).inbox = s.inbox := by cases j <;> rfl
@[simp] theorem complete_outbox (j : Job) (s : State) : (complete j s).outbox = s.outbox := by cases j <;> rfl
@[simp] theorem complete_render_raw (g : Group) (s : State) :
    (complete (.render g) s).raw = s.raw.set g ((s.raw.get g).complete (packDim (planeWidth s.cfg g) (planeHeight s.cfg))) := rfl
@[simp] theorem complete_render_nrm (g : Group) (s : State) :
    (complete (.render g) s).nrm = s.nrm := rfl
@[simp] theorem complete_render_rgb (g : Group) (s : State) :
    (complete (.render g) s).rgb = s.rgb := rfl
@[simp] theorem complete_norm_raw (g : Group) (s : State) :
    (complete (.norm g) s).raw = s.raw := rfl
@[simp] theorem complete_norm_nrm (g : Group) (s : State) :
    (complete (.norm g) s).nrm = s.nrm.set g ((s.nrm.get g).complete (s.raw.get g).dim) := rfl
@[simp] theorem complete_norm_rgb (g : Group) (s : State) :
    (complete (.norm g) s).rgb = s.rgb := rfl
@[simp] theorem complete_compose_raw (s : State) :
    (complete .compose s).raw = s.raw := rfl
@[simp] theorem complete_compose_nrm (s : State) :
    (complete .compose s).nrm = s.nrm := rfl
@[simp] theorem complete_compose_rgb (s : State) :
    (complete .compose s).rgb = s.rgb.complete s.aln.y.dim := rfl

/-! ### Raising -/

@[simp] theorem dropDest_busy {j : Job} {s : State} (h : s.run = .busy j) : dropDest s = clearDest j s := by
  simp [dropDest, h]

@[simp] theorem dropDest_cfg (s : State) : (dropDest s).cfg = s.cfg := by
  unfold dropDest
  split <;> simp
@[simp] theorem dropDest_run (s : State) : (dropDest s).run = s.run := by
  unfold dropDest
  split <;> simp
@[simp] theorem dropDest_refused (s : State) : (dropDest s).refused = s.refused := by
  unfold dropDest
  split <;> simp
@[simp] theorem dropDest_refuseReason (s : State) : (dropDest s).refuseReason = s.refuseReason := by
  unfold dropDest
  split <;> simp
@[simp] theorem dropDest_faultRec (s : State) : (dropDest s).faultRec = s.faultRec := by
  unfold dropDest
  split <;> simp
@[simp] theorem dropDest_vseq (s : State) : (dropDest s).vseq = s.vseq := by
  unfold dropDest
  split <;> simp
@[simp] theorem dropDest_rom (s : State) : (dropDest s).rom = s.rom := by
  unfold dropDest
  split <;> simp
@[simp] theorem dropDest_aln (s : State) : (dropDest s).aln = s.aln := by
  unfold dropDest
  split <;> simp
@[simp] theorem dropDest_walk (s : State) : (dropDest s).walk = s.walk := by
  unfold dropDest
  split <;> simp
@[simp] theorem dropDest_normIdx (s : State) : (dropDest s).normIdx = s.normIdx := by
  unfold dropDest
  split <;> simp
@[simp] theorem dropDest_compIdx (s : State) : (dropDest s).compIdx = s.compIdx := by
  unfold dropDest
  split <;> simp
@[simp] theorem dropDest_inbox (s : State) : (dropDest s).inbox = s.inbox := by
  unfold dropDest
  split <;> simp
@[simp] theorem dropDest_outbox (s : State) : (dropDest s).outbox = s.outbox := by
  unfold dropDest
  split <;> simp
@[simp] theorem raise_cfg (k : FaultKind) (i v : Nat) (s : State) : (raise k i v s).cfg = s.cfg := by
  simp [raise]
@[simp] theorem raise_run (k : FaultKind) (i v : Nat) (s : State) : (raise k i v s).run = .fault := rfl
@[simp] theorem raise_refused (k : FaultKind) (i v : Nat) (s : State) : (raise k i v s).refused = s.refused := by
  simp [raise]
@[simp] theorem raise_refuseReason (k : FaultKind) (i v : Nat) (s : State) : (raise k i v s).refuseReason = s.refuseReason := by
  simp [raise]
@[simp] theorem raise_faultRec (k : FaultKind) (i v : Nat) (s : State) :
    (raise k i v s).faultRec = { cause := k.word, index := BitVec.ofNat 32 i, value := BitVec.ofNat 32 v } := rfl
@[simp] theorem raise_vseq (k : FaultKind) (i v : Nat) (s : State) : (raise k i v s).vseq = s.vseq := by
  simp [raise]
@[simp] theorem raise_rom (k : FaultKind) (i v : Nat) (s : State) : (raise k i v s).rom = s.rom := by
  simp [raise]
@[simp] theorem raise_raw (k : FaultKind) (i v : Nat) (s : State) : (raise k i v s).raw = (dropDest s).raw := rfl
@[simp] theorem raise_nrm (k : FaultKind) (i v : Nat) (s : State) : (raise k i v s).nrm = (dropDest s).nrm := rfl
@[simp] theorem raise_aln (k : FaultKind) (i v : Nat) (s : State) : (raise k i v s).aln = s.aln := by
  simp [raise]
@[simp] theorem raise_rgb (k : FaultKind) (i v : Nat) (s : State) : (raise k i v s).rgb = (dropDest s).rgb := rfl
@[simp] theorem raise_walk (k : FaultKind) (i v : Nat) (s : State) : (raise k i v s).walk = s.walk := by
  simp [raise]
@[simp] theorem raise_normIdx (k : FaultKind) (i v : Nat) (s : State) : (raise k i v s).normIdx = s.normIdx := by
  simp [raise]
@[simp] theorem raise_compIdx (k : FaultKind) (i v : Nat) (s : State) : (raise k i v s).compIdx = s.compIdx := by
  simp [raise]
@[simp] theorem raise_inbox (k : FaultKind) (i v : Nat) (s : State) : (raise k i v s).inbox = s.inbox := by
  simp [raise]
@[simp] theorem raise_outbox (k : FaultKind) (i v : Nat) (s : State) : (raise k i v s).outbox = s.outbox := by
  simp [raise]

/-! ### Delivering and resetting -/

@[simp] theorem deliver_cfg (r : Reply) (s : State) : (deliver r s).cfg = s.cfg := rfl
@[simp] theorem deliver_run (r : Reply) (s : State) : (deliver r s).run = s.run := rfl
@[simp] theorem deliver_refused (r : Reply) (s : State) : (deliver r s).refused = s.refused := rfl
@[simp] theorem deliver_refuseReason (r : Reply) (s : State) : (deliver r s).refuseReason = s.refuseReason := rfl
@[simp] theorem deliver_faultRec (r : Reply) (s : State) : (deliver r s).faultRec = s.faultRec := rfl
@[simp] theorem deliver_vseq (r : Reply) (s : State) : (deliver r s).vseq = s.vseq := rfl
@[simp] theorem deliver_rom (r : Reply) (s : State) : (deliver r s).rom = s.rom := rfl
@[simp] theorem deliver_raw (r : Reply) (s : State) : (deliver r s).raw = s.raw := rfl
@[simp] theorem deliver_nrm (r : Reply) (s : State) : (deliver r s).nrm = s.nrm := rfl
@[simp] theorem deliver_aln (r : Reply) (s : State) : (deliver r s).aln = s.aln := rfl
@[simp] theorem deliver_rgb (r : Reply) (s : State) : (deliver r s).rgb = s.rgb := rfl
@[simp] theorem deliver_walk (r : Reply) (s : State) : (deliver r s).walk = s.walk := rfl
@[simp] theorem deliver_normIdx (r : Reply) (s : State) : (deliver r s).normIdx = s.normIdx := rfl
@[simp] theorem deliver_compIdx (r : Reply) (s : State) : (deliver r s).compIdx = s.compIdx := rfl
@[simp] theorem deliver_inbox (r : Reply) (s : State) : (deliver r s).inbox = s.inbox := rfl
@[simp] theorem deliver_outbox (r : Reply) (s : State) : (deliver r s).outbox = s.outbox ++ [r] := rfl
@[simp] theorem applyReset_cfg (s : State) : (applyReset s).cfg = State.reset.cfg := rfl
@[simp] theorem applyReset_run (s : State) : (applyReset s).run = State.reset.run := rfl
@[simp] theorem applyReset_refused (s : State) : (applyReset s).refused = State.reset.refused := rfl
@[simp] theorem applyReset_refuseReason (s : State) : (applyReset s).refuseReason = State.reset.refuseReason := rfl
@[simp] theorem applyReset_faultRec (s : State) : (applyReset s).faultRec = State.reset.faultRec := rfl
@[simp] theorem applyReset_vseq (s : State) : (applyReset s).vseq = State.reset.vseq := rfl
@[simp] theorem applyReset_rom (s : State) : (applyReset s).rom = State.reset.rom := rfl
@[simp] theorem applyReset_raw (s : State) : (applyReset s).raw = State.reset.raw := rfl
@[simp] theorem applyReset_nrm (s : State) : (applyReset s).nrm = State.reset.nrm := rfl
@[simp] theorem applyReset_aln (s : State) : (applyReset s).aln = State.reset.aln := rfl
@[simp] theorem applyReset_rgb (s : State) : (applyReset s).rgb = State.reset.rgb := rfl
@[simp] theorem applyReset_walk (s : State) : (applyReset s).walk = State.reset.walk := rfl
@[simp] theorem applyReset_normIdx (s : State) : (applyReset s).normIdx = State.reset.normIdx := rfl
@[simp] theorem applyReset_compIdx (s : State) : (applyReset s).compIdx = State.reset.compIdx := rfl
@[simp] theorem applyReset_inbox (s : State) : (applyReset s).inbox = s.inbox := rfl
@[simp] theorem applyReset_outbox (s : State) : (applyReset s).outbox = s.outbox := rfl

end Sys2Proof.Machine
end

