-- ==== Sys2Proof/Laws/Command.lean ====
section
/-! SUPPORT. What the acceptance of a command and its run can do: accepted exactly when its three checks hold, and a loop
principle for the elementary steps. -/

namespace Sys2Proof.Machine

@[simp] theorem isBusy_busy (j : Job) : (RunState.busy j).isBusy = true := rfl
@[simp] theorem isBusy_idle : RunState.idle.isBusy = false := rfl
@[simp] theorem isBusy_fault : RunState.fault.isBusy = false := rfl

theorem isBusy_false_iff (r : RunState) : r.isBusy = false ↔ r = .idle ∨ r = .fault := by
  cases r <;> simp [RunState.isBusy]

/-- A command is accepted exactly when the block is IDLE, the registers it uses are legal and its sources hold values. -/
theorem rejection_eq_none_iff (j : Job) (s : State) :
    rejection j s = none ↔ s.run = .idle ∧ configLegal j s.cfg = true ∧ inputsValid j s = true := by
  unfold rejection
  by_cases h1 : s.run = .idle <;> by_cases h2 : configLegal j s.cfg = true <;>
    by_cases h3 : inputsValid j s = true <;> simp_all

theorem rejection_of_not_idle {j : Job} {s : State} (h : s.run ≠ .idle) : rejection j s = some .notIdle := by
  rw [rejection, if_pos h]

theorem rejection_of_illegal {j : Job} {s : State} (h : s.run = .idle) (hc : configLegal j s.cfg = false) :
    rejection j s = some .cfgIllegal := by
  rw [rejection, if_neg (not_not.mpr h), if_pos hc]

theorem rejection_of_invalid {j : Job} {s : State} (h : s.run = .idle) (hc : configLegal j s.cfg = true)
    (hv : inputsValid j s = false) : rejection j s = some .inputNotValid := by
  rw [rejection, if_neg (not_not.mpr h), if_neg (by simp [hc]), if_pos hv]

/-- The bounds of R31 for the walk. -/
theorem geometryLegal_iff (c : ConfigRegs) :
    geometryLegal c = true ↔
      c.backLen.toNat ≤ 4095 ∧ c.rasterLen.toNat ≤ 4095 ∧ c.frontLen.toNat ≤ 4095 ∧
        1 ≤ c.numLines.toNat ∧ c.numLines.toNat ≤ 4095 := by
  simp only [geometryLegal, Bool.and_eq_true, decide_eq_true_eq, and_assoc]
  rfl

/-- The condition of R31 for the luma window. -/
theorem lumaLegal_iff (c : ConfigRegs) : lumaLegal c = true ↔ c.yLow.toNat < c.yHigh.toNat := by
  simp only [lumaLegal, decide_eq_true_eq]

/-- The condition of R31 for a chroma command. -/
theorem chromaLegal_iff (c : ConfigRegs) (range : BitVec 8) :
    chromaLegal c range = true ↔ 1 ≤ c.cHeadroom.toNat ∧ c.cHeadroom.toNat ≤ 128 ∧ 1 ≤ range.toNat := by
  simp only [chromaLegal, Bool.and_eq_true, decide_eq_true_eq, and_assoc]
  rfl

theorem runCommand_refused {j : Job} {check : State → Option (FaultKind × Nat × Nat)} {micro : State → Result} {s : State}
    {r : RefuseReason} (h : rejection j s = some r) : runCommand j check micro s = .next (refuse r s) := by
  simp [runCommand, h]

theorem runCommand_accepted {j : Job} {check : State → Option (FaultKind × Nat × Nat)} {micro : State → Result}
    {s : State} (h : rejection j s = none) : runCommand j check micro s = runBegun j check micro (begin j s) := by
  simp [runCommand, h]

theorem runBegun_raises {j : Job} {check : State → Option (FaultKind × Nat × Nat)} {micro : State → Result} {s : State}
    {k : FaultKind} {i v : Nat} (h : check s = some (k, i, v)) : runBegun j check micro s = .next (raise k i v s) := by
  simp [runBegun, h]

theorem runBegun_runs {j : Job} {check : State → Option (FaultKind × Nat × Nat)} {micro : State → Result} {s : State}
    (h : check s = none) :
    runBegun j check micro s = runWhileBusy micro (elementCount j s + 1) (initWork j s) := by
  simp [runBegun, h]

theorem runWhileBusy_next {micro : State → Result} {s t : State} {fuel : Nat} (hb : s.run.isBusy = true)
    (h : micro s = .next t) : runWhileBusy micro (fuel + 1) s = runWhileBusy micro fuel t := by
  simp [runWhileBusy, hb, h]

theorem runWhileBusy_stops {micro : State → Result} {s : State} (fuel : Nat) (hb : s.run.isBusy = false) :
    runWhileBusy micro fuel s = .next s := by
  cases fuel <;> simp [runWhileBusy, hb]

/-- The loop principle: a property that each elementary step below `n` carries to the next index holds at `n`. -/
theorem runWhileBusy_reach {micro : State → Result} {P : Nat → State → Prop} {n : Nat}
    (hbusy : ∀ i x, P i x → x.run.isBusy = true)
    (hstep : ∀ i x, i < n → P i x → ∃ y, micro x = .next y ∧ P (i + 1) y) :
    ∀ m i x fuel, i + m = n → P i x →
      ∃ y, P n y ∧ runWhileBusy micro (fuel + m) x = runWhileBusy micro fuel y := by
  intro m
  induction m with
  | zero =>
    intro i x fuel hi hp
    have : i = n := by omega
    subst this
    exact ⟨x, hp, rfl⟩
  | succ m ih =>
    intro i x fuel hi hp
    obtain ⟨y, hy, hpy⟩ := hstep i x (by omega) hp
    obtain ⟨z, hz, hrun⟩ := ih (i + 1) y fuel (by omega) hpy
    exact ⟨z, hz, by rw [← Nat.add_assoc, runWhileBusy_next (hbusy i x hp) hy, hrun]⟩

end Sys2Proof.Machine
end

