-- ==== Sys2Proof/Laws/Compose.lean ====
section
/-! SUPPORT. What `COMPOSE` does once it is accepted: a geometry fault, or every pixel of the image. -/

namespace Sys2Proof.Machine

/-- The state of a running `COMPOSE` before pixel `i`, with `m` in the destination. -/
def composeAt (s : State) (m : Memory Rgb) (i : Nat) : State :=
  { s with rgb := { valid := false, dim := 0#32, mem := m }, run := .busy .compose, compIdx := i }

/-- The state after `COMPOSE` has completed with `m` in the destination. -/
def composeDone (s : State) (m : Memory Rgb) : State :=
  { s with
    rgb := { valid := true, dim := s.aln.y.dim, mem := m }
    run := .idle
    compIdx := dimSize s.aln.y.dim }

/-- The state after `COMPOSE` has raised a geometry fault. -/
def composeFaulted (s : State) (k : FaultKind) (i v : Nat) : State :=
  { s with
    rgb := Buffer.empty
    run := .fault
    faultRec := { cause := k.word, index := BitVec.ofNat 32 i, value := BitVec.ofNat 32 v } }

theorem composeAt_start (s : State) : initWork .compose (begin .compose s) = composeAt s [] 0 := rfl

/-- Pixel `n` of the image is `w`: the three planes hold values there, and `w` is their combination (R187, R189). -/
def pixelComposesTo (s : State) (n : Nat) (w : Rgb) : Prop :=
  ∃ y cb cr, s.aln.y.read n = some y ∧ s.aln.cb.read n = some cb ∧ s.aln.cr.read n = some cr ∧ w = composePixel y cb cr

theorem composeMicro_pixel {s : State} {m : Memory Rgb} {i : Nat} {w : Rgb} (hi : i < dimSize s.aln.y.dim)
    (h : pixelComposesTo s i w) :
    composeMicro (composeAt s m i) = .next (composeAt s (Memory.write m i w) (i + 1)) := by
  obtain ⟨y, cb, cr, hy, hcb, hcr, rfl⟩ := h
  have hcount : ¬ elementCount .compose (composeAt s m i) ≤ (composeAt s m i).compIdx := by
    simp only [elementCount, composeAt]
    omega
  rw [composeMicro, if_neg hcount]
  simp only [composeElement, readAligned, composeAt, PerAln.get, hy, hcb, hcr, Buffer.write]

theorem composeMicro_complete (s : State) (m : Memory Rgb) :
    composeMicro (composeAt s m (dimSize s.aln.y.dim)) = .next (composeDone s m) := by
  have hcount : elementCount .compose (composeAt s m (dimSize s.aln.y.dim))
      ≤ (composeAt s m (dimSize s.aln.y.dim)).compIdx := by
    simp only [elementCount, composeAt]
    omega
  rw [composeMicro, if_pos hcount]
  simp only [complete, composeAt, composeDone, Buffer.complete]

/-- What an accepted `COMPOSE` answers when the geometry check fails. -/
theorem compose_faults {s : State} {k : FaultKind} {i v : Nat} (hacc : rejection .compose s = none)
    (hcheck : composeCheck s = some (k, i, v)) : execCompose s = .next (composeFaulted s k i v) := by
  have hbegun : composeCheck (begin .compose s) = some (k, i, v) := hcheck
  rw [execCompose, runCommand_accepted hacc, runBegun_raises hbegun]
  rfl

/-- The geometry check passes exactly when the three planes have the same dimension fields. -/
theorem composeCheck_eq_none_iff (s : State) :
    composeCheck s = none ↔
      dimWidth s.aln.cb.dim = dimWidth s.aln.y.dim ∧ dimHeight s.aln.cb.dim = dimHeight s.aln.y.dim ∧
      dimWidth s.aln.cr.dim = dimWidth s.aln.y.dim ∧ dimHeight s.aln.cr.dim = dimHeight s.aln.y.dim := by
  by_cases h1 : dimWidth s.aln.cb.dim = dimWidth s.aln.y.dim <;>
    by_cases h2 : dimHeight s.aln.cb.dim = dimHeight s.aln.y.dim <;>
      by_cases h3 : dimWidth s.aln.cr.dim = dimWidth s.aln.y.dim <;>
        by_cases h4 : dimHeight s.aln.cr.dim = dimHeight s.aln.y.dim <;> simp [composeCheck, h1, h2, h3, h4]

/-- What an accepted `COMPOSE` answers when the geometry check passes: the whole image. -/
theorem compose_completes {s : State} (hacc : rejection .compose s = none) (hcheck : composeCheck s = none)
    (hinv : s.aln.y.Inv ∧ s.aln.cb.Inv ∧ s.aln.cr.Inv) :
    ∃ m, Memory.full m (dimSize s.aln.y.dim) ∧
      (∀ n, n < dimSize s.aln.y.dim → ∃ w, pixelComposesTo s n w ∧ Memory.read m n = some w) ∧
      execCompose s = .next (composeDone s m) := by
  have hvalid : inputsValid .compose s = true := ((rejection_eq_none_iff _ _).mp hacc).2.2
  obtain ⟨⟨hvy, hvcb⟩, hvcr⟩ : (s.aln.y.valid = true ∧ s.aln.cb.valid = true) ∧ s.aln.cr.valid = true := by
    simpa [inputsValid] using hvalid
  obtain ⟨hw1, hh1, hw2, hh2⟩ := (composeCheck_eq_none_iff s).mp hcheck
  have hsize1 : dimSize s.aln.cb.dim = dimSize s.aln.y.dim := by simp [dimSize, hw1, hh1]
  have hsize2 : dimSize s.aln.cr.dim = dimSize s.aln.y.dim := by simp [dimSize, hw2, hh2]
  have hpix : ∀ n, n < dimSize s.aln.y.dim → ∃ w, pixelComposesTo s n w := by
    intro n hn
    obtain ⟨y, hy⟩ := Buffer.read_of_inv hinv.1 hvy hn
    obtain ⟨cb, hcb⟩ := Buffer.read_of_inv hinv.2.1 hvcb (hsize1 ▸ hn)
    obtain ⟨cr, hcr⟩ := Buffer.read_of_inv hinv.2.2 hvcr (hsize2 ▸ hn)
    exact ⟨_, y, cb, cr, hy, hcb, hcr, rfl⟩
  let P : Nat → State → Prop := fun i x =>
    ∃ m, x = composeAt s m i ∧ Memory.full m i ∧ ∀ n, n < i → ∃ w, pixelComposesTo s n w ∧ Memory.read m n = some w
  have hbusy : ∀ i x, P i x → x.run.isBusy = true := by
    rintro i x ⟨m, rfl, -, -⟩
    rfl
  have hstep : ∀ i x, i < dimSize s.aln.y.dim → P i x → ∃ y, composeMicro x = .next y ∧ P (i + 1) y := by
    rintro i x hi ⟨m, rfl, hfull, hval⟩
    obtain ⟨w, hw⟩ := hpix i hi
    refine ⟨_, composeMicro_pixel hi hw, _, rfl, Memory.full_write hfull w, ?_⟩
    intro n hn
    by_cases hni : n = i
    · subst hni
      exact ⟨w, hw, Memory.read_write_same m n w⟩
    · obtain ⟨w', hw', hr⟩ := hval n (by omega)
      exact ⟨w', hw', by rw [Memory.read_write_other m w hni, hr]⟩
  obtain ⟨y, ⟨m, rfl, hfull, hval⟩, hrun⟩ :=
    runWhileBusy_reach hbusy hstep (dimSize s.aln.y.dim) 0 (composeAt s [] 0) 1 (by omega) ⟨[], rfl, rfl, by simp⟩
  refine ⟨m, hfull, hval, ?_⟩
  have hbegun : composeCheck (begin .compose s) = none := hcheck
  rw [execCompose, runCommand_accepted hacc, runBegun_runs hbegun, composeAt_start, Nat.add_comm]
  show runWhileBusy composeMicro (1 + dimSize s.aln.y.dim) (composeAt s [] 0) = _
  rw [hrun, runWhileBusy_next rfl (composeMicro_complete s m)]
  rfl

end Sys2Proof.Machine
end

