-- ==== Sys2Proof/Laws/Normalize.lean ====
section
/-! SUPPORT. What `NORM.g` does once it is accepted: every pixel through the transform, or the first overshoot raised. -/

namespace Sys2Proof.Machine

/-- The state of a running `NORM.g` before pixel `i`, with `m` in the destination. -/
def normAt (s : State) (g : Group) (m : Memory Byte) (i : Nat) : State :=
  { s with
    nrm := s.nrm.set g { valid := false, dim := 0#32, mem := m }
    run := .busy (.norm g)
    normIdx := i }

/-- The state after `NORM.g` has completed with `m` in the destination. -/
def normDone (s : State) (g : Group) (m : Memory Byte) : State :=
  { s with
    nrm := s.nrm.set g { valid := true, dim := (s.raw.get g).dim, mem := m }
    run := .idle
    normIdx := dimSize (s.raw.get g).dim }

/-- The state after `NORM.g` has raised an overshoot at pixel `i` with code `v`. -/
def normFaulted (s : State) (g : Group) (i : Nat) (v : Byte) : State :=
  { s with
    nrm := s.nrm.set g Buffer.empty
    run := .fault
    faultRec :=
      { cause := (FaultKind.calibrationOvershoot g).word
        index := BitVec.ofNat 32 i
        value := BitVec.ofNat 32 v.toNat }
    normIdx := i }

theorem normAt_start (s : State) (g : Group) : initWork (.norm g) (begin (.norm g) s) = normAt s g [] 0 := rfl

/-- Pixel `n` of `RAW[g]` holds a code that the transform maps to `w`. -/
def pixelMapsTo (s : State) (g : Group) (n : Nat) (w : Byte) : Prop :=
  ∃ v, (s.raw.get g).read n = some v ∧ levelTransform g s.cfg v = some w

theorem normMicro_pixel {s : State} {g : Group} {m : Memory Byte} {i : Nat} {w : Byte}
    (hi : i < dimSize (s.raw.get g).dim) (h : pixelMapsTo s g i w) :
    normMicro g (normAt s g m i) = .next (normAt s g (Memory.write m i w) (i + 1)) := by
  obtain ⟨v, hread, ht⟩ := h
  have hcount : ¬ elementCount (.norm g) (normAt s g m i) ≤ (normAt s g m i).normIdx := by
    simp only [elementCount, normAt]
    omega
  rw [normMicro, if_neg hcount]
  simp only [normPixel, normAt, hread, ht, PerGroup.get_set_same, PerGroup.set_set, Buffer.write]

theorem normMicro_overshoot {s : State} {g : Group} {m : Memory Byte} {i : Nat} {v : Byte}
    (hi : i < dimSize (s.raw.get g).dim) (hread : (s.raw.get g).read i = some v)
    (ht : levelTransform g s.cfg v = none) :
    normMicro g (normAt s g m i) = .next (normFaulted s g i v) := by
  have hcount : ¬ elementCount (.norm g) (normAt s g m i) ≤ (normAt s g m i).normIdx := by
    simp only [elementCount, normAt]
    omega
  rw [normMicro, if_neg hcount]
  simp only [normPixel, normAt, hread, ht, raise, dropDest, clearDest, PerGroup.set_set, normFaulted]

theorem normMicro_complete (s : State) (g : Group) (m : Memory Byte) :
    normMicro g (normAt s g m (dimSize (s.raw.get g).dim)) = .next (normDone s g m) := by
  have hcount : elementCount (.norm g) (normAt s g m (dimSize (s.raw.get g).dim))
      ≤ (normAt s g m (dimSize (s.raw.get g).dim)).normIdx := by
    simp only [elementCount, normAt]
    omega
  rw [normMicro, if_pos hcount]
  simp only [complete, normAt, normDone, Buffer.complete, PerGroup.get_set_same, PerGroup.set_set]

/-- The loop of `NORM.g` up to pixel `q`, when every pixel before it is in range. -/
theorem norm_reaches {s : State} {g : Group} {q : Nat} (hq : q ≤ dimSize (s.raw.get g).dim)
    (hpix : ∀ n, n < q → ∃ w, pixelMapsTo s g n w) (fuel : Nat) :
    ∃ m, Memory.full m q ∧ (∀ n, n < q → ∃ w, pixelMapsTo s g n w ∧ Memory.read m n = some w) ∧
      runWhileBusy (normMicro g) (fuel + q) (normAt s g [] 0)
        = runWhileBusy (normMicro g) fuel (normAt s g m q) := by
  let P : Nat → State → Prop := fun i x =>
    ∃ m, x = normAt s g m i ∧ Memory.full m i ∧ ∀ n, n < i → ∃ w, pixelMapsTo s g n w ∧ Memory.read m n = some w
  have hbusy : ∀ i x, P i x → x.run.isBusy = true := by
    rintro i x ⟨m, rfl, -, -⟩
    rfl
  have hstep : ∀ i x, i < q → P i x → ∃ y, normMicro g x = .next y ∧ P (i + 1) y := by
    rintro i x hi ⟨m, rfl, hfull, hval⟩
    obtain ⟨w, hw⟩ := hpix i hi
    refine ⟨_, normMicro_pixel (by omega) hw, _, rfl, Memory.full_write hfull w, ?_⟩
    intro n hn
    by_cases hni : n = i
    · subst hni
      exact ⟨w, hw, Memory.read_write_same m n w⟩
    · obtain ⟨w', hw', hr⟩ := hval n (by omega)
      exact ⟨w', hw', by rw [Memory.read_write_other m w hni, hr]⟩
  obtain ⟨y, ⟨m, rfl, hfull, hval⟩, hrun⟩ :=
    runWhileBusy_reach hbusy hstep q 0 (normAt s g [] 0) fuel (by omega) ⟨[], rfl, rfl, by simp⟩
  exact ⟨m, hfull, hval, hrun⟩

/-- What an accepted `NORM.g` answers when every pixel is in range: the whole normalized plane. -/
theorem norm_completes {s : State} {g : Group} (hacc : rejection (.norm g) s = none)
    (hpix : ∀ n, n < dimSize (s.raw.get g).dim → ∃ w, pixelMapsTo s g n w) :
    ∃ m, Memory.full m (dimSize (s.raw.get g).dim) ∧
      (∀ n, n < dimSize (s.raw.get g).dim → ∃ w, pixelMapsTo s g n w ∧ Memory.read m n = some w) ∧
      norm g s = .next (normDone s g m) := by
  obtain ⟨m, hfull, hval, hrun⟩ := norm_reaches (le_refl _) hpix 1
  refine ⟨m, hfull, hval, ?_⟩
  rw [norm, runCommand_accepted hacc, runBegun_runs rfl, normAt_start, Nat.add_comm]
  show runWhileBusy (normMicro g) (1 + dimSize (s.raw.get g).dim) (normAt s g [] 0) = _
  rw [hrun, runWhileBusy_next rfl (normMicro_complete s g m)]
  rfl

/-- What an accepted `NORM.g` answers when pixel `q` is the first that overshoots: the fault with `q` and its code. -/
theorem norm_overshoots {s : State} {g : Group} {q : Nat} {v : Byte} (hacc : rejection (.norm g) s = none)
    (hq : q < dimSize (s.raw.get g).dim) (hpix : ∀ n, n < q → ∃ w, pixelMapsTo s g n w)
    (hread : (s.raw.get g).read q = some v) (ht : levelTransform g s.cfg v = none) :
    norm g s = .next (normFaulted s g q v) := by
  obtain ⟨m, -, -, hrun⟩ := norm_reaches (le_of_lt hq) hpix (dimSize (s.raw.get g).dim - q + 1)
  rw [norm, runCommand_accepted hacc, runBegun_runs rfl, normAt_start]
  have hfuel : elementCount (.norm g) (begin (.norm g) s) + 1 = dimSize (s.raw.get g).dim - q + 1 + q := by
    have : elementCount (.norm g) (begin (.norm g) s) = dimSize (s.raw.get g).dim := rfl
    omega
  rw [hfuel, hrun, runWhileBusy_next rfl (normMicro_overshoot hq hread ht)]
  exact runWhileBusy_stops _ rfl

/-- An accepted `NORM.g` on a state whose source plane is whole either completes or raises its first overshoot. -/
theorem norm_accepted_cases {s : State} {g : Group} (hacc : rejection (.norm g) s = none)
    (hinv : (s.raw.get g).Inv) :
    (∃ m, Memory.full m (dimSize (s.raw.get g).dim) ∧
      (∀ n, n < dimSize (s.raw.get g).dim → ∃ w, pixelMapsTo s g n w ∧ Memory.read m n = some w) ∧
      norm g s = .next (normDone s g m)) ∨
    (∃ q v, q < dimSize (s.raw.get g).dim ∧ (∀ n, n < q → ∃ w, pixelMapsTo s g n w) ∧
      (s.raw.get g).read q = some v ∧ levelTransform g s.cfg v = none ∧
      norm g s = .next (normFaulted s g q v)) := by
  have hv : (s.raw.get g).valid = true := ((rejection_eq_none_iff _ _).mp hacc).2.2
  by_cases hall : ∀ n, n < dimSize (s.raw.get g).dim → ∃ w, pixelMapsTo s g n w
  · exact Or.inl (norm_completes hacc hall)
  · refine Or.inr ?_
    classical
    push Not at hall
    have hex : ∃ n, n < dimSize (s.raw.get g).dim ∧ ∀ w, ¬ pixelMapsTo s g n w := hall
    let q := Nat.find hex
    obtain ⟨hq, hnone⟩ := Nat.find_spec hex
    have hbefore : ∀ n, n < q → ∃ w, pixelMapsTo s g n w := by
      intro n hn
      have hmin := Nat.find_min hex hn
      by_contra hno
      push Not at hno
      exact hmin ⟨by omega, hno⟩
    obtain ⟨v, hread⟩ := Buffer.read_of_inv hinv hv hq
    have ht : levelTransform g s.cfg v = none := by
      cases hlt : levelTransform g s.cfg v with
      | none => rfl
      | some w => exact absurd ⟨v, hread, hlt⟩ (hnone w)
    exact ⟨q, v, hq, hbefore, hread, ht, norm_overshoots hacc hq hbefore hread ht⟩

end Sys2Proof.Machine
end

