-- ==== Sys2Proof/Laws/Render.lean ====
section
/-! SUPPORT. What the walk of unit U1 does: the working registers after t entries, one `VFETCH`, the whole loop, and what
`RENDER.g` answers once it is accepted. -/

namespace Sys2Proof.Machine

/-! ### Dimension registers -/

theorem dimWidth_packDim {w h : Nat} (hw : w < 2 ^ 16) : dimWidth (packDim w h) = w := by
  have : (packDim w h).extractLsb' 16 16 = BitVec.ofNat 16 w := by
    simp only [packDim]
    rw [BitVec.extractLsb'_append_eq_of_le (by omega)]
    simp
  simp only [dimWidth, this, BitVec.toNat_ofNat]
  omega

theorem dimHeight_packDim {w h : Nat} (hh : h < 2 ^ 16) : dimHeight (packDim w h) = h := by
  have : (packDim w h).extractLsb' 0 16 = BitVec.ofNat 16 h := by
    simp only [packDim]
    rw [BitVec.extractLsb'_append_eq_of_add_le (by omega)]
    simp
  simp only [dimHeight, this, BitVec.toNat_ofNat]
  omega

theorem dimSize_packDim {w h : Nat} (hw : w < 2 ^ 16) (hh : h < 2 ^ 16) : dimSize (packDim w h) = w * h := by
  simp [dimSize, dimWidth_packDim hw, dimHeight_packDim hh]

/-! ### Geometry (R122) -/

theorem cpg_pos (g : Group) : 0 < cpg g := by cases g <;> decide

theorem cpg_le (g : Group) : cpg g ≤ 4 := by cases g <;> decide

theorem geometry_bounds {c : ConfigRegs} (h : geometryLegal c = true) :
    lineWidth c ≤ 12285 ∧ 1 ≤ lineCount c ∧ lineCount c ≤ 4095 := by
  simp only [geometryLegal, Bool.and_eq_true, decide_eq_true_eq] at h
  obtain ⟨⟨⟨⟨h1, h2⟩, h3⟩, h4⟩, h5⟩ := h
  simp only [Config.maxGeometry] at h1 h2 h3 h5
  exact ⟨by simp only [lineWidth]; omega, h4, h5⟩

theorem planeWidth_lt {c : ConfigRegs} (h : geometryLegal c = true) (g : Group) : planeWidth c g < 2 ^ 16 := by
  have hl := (geometry_bounds h).1
  have := Nat.mul_le_mul hl (cpg_le g)
  simp only [planeWidth]
  omega

theorem planeHeight_lt {c : ConfigRegs} (h : geometryLegal c = true) : planeHeight c < 2 ^ 16 := by
  have hl := geometry_bounds h
  simp only [planeHeight]
  omega

/-- The entries that are drawn: all but the last line of each field (R130). -/
def drawnCount (c : ConfigRegs) : Nat := 2 * (lineCount c - 1) * lineWidth c

theorem dimSize_rendered {c : ConfigRegs} (h : geometryLegal c = true) (g : Group) :
    dimSize (packDim (planeWidth c g) (planeHeight c)) = cpg g * drawnCount c := by
  rw [dimSize_packDim (planeWidth_lt h g) (planeHeight_lt h)]
  simp only [planeWidth, planeHeight, drawnCount]
  ring

/-- All drawn entries are walked. -/
theorem drawnCount_le (c : ConfigRegs) : drawnCount c ≤ vseqRequired c := by
  simp only [drawnCount, vseqRequired, fieldLen]
  calc 2 * (lineCount c - 1) * lineWidth c ≤ 2 * lineCount c * lineWidth c := Nat.mul_le_mul_right _ (by omega)
    _ = 2 * (lineWidth c * lineCount c) := by ring

/-- The entries a legal walk needs fit a 32-bit index (R31). -/
theorem vseqRequired_lt {c : ConfigRegs} (h : geometryLegal c = true) : vseqRequired c < 2 ^ 32 := by
  have hb := geometry_bounds h
  have := Nat.mul_le_mul hb.1 hb.2.2
  simp only [vseqRequired, fieldLen]
  omega

/-! ### The working registers after t entries (R127) -/

/-- The working registers when `t` entries have been walked. -/
def walkAt (c : ConfigRegs) (t : Nat) : Walk where
  k := t / lineWidth c / 2
  f := if t / lineWidth c % 2 = 0 then 0 else 1
  p := t % lineWidth c
  c := 0
  vcur0 := t / lineWidth c / 2 * lineWidth c + if t / lineWidth c % 2 = 0 then t % lineWidth c else lineWidth c
  vcur1 := fieldLen c + t / lineWidth c / 2 * lineWidth c + if t / lineWidth c % 2 = 0 then 0 else t % lineWidth c

/-- The working registers at the end of a walk (R22). -/
def walkEnd (c : ConfigRegs) : Walk where
  k := lineCount c
  f := 0
  p := 0
  c := 0
  vcur0 := fieldLen c
  vcur1 := vseqRequired c

theorem walkStart_eq {c : ConfigRegs} (h : 0 < lineWidth c) : walkStart c = walkAt c 0 := by
  have h0 : lineWidth c ≠ 0 := by omega
  simp [walkStart, walkAt, h0]

theorem walkStart_empty {c : ConfigRegs} (h : lineWidth c = 0) : walkStart c = walkEnd c := by
  simp [walkStart, walkEnd, h, vseqRequired, fieldLen]

theorem walkAt_end {c : ConfigRegs} (h : 0 < lineWidth c) : walkAt c (vseqRequired c) = walkEnd c := by
  have hq : vseqRequired c / lineWidth c = 2 * lineCount c := by
    rw [vseqRequired, fieldLen, show 2 * (lineWidth c * lineCount c) = lineWidth c * (2 * lineCount c) by ring]
    exact Nat.mul_div_cancel_left _ h
  have hr : vseqRequired c % lineWidth c = 0 := by
    rw [vseqRequired, fieldLen, show 2 * (lineWidth c * lineCount c) = lineWidth c * (2 * lineCount c) by ring]
    exact Nat.mul_mod_right _ _
  have hf : fieldLen c = lineCount c * lineWidth c := by rw [fieldLen, Nat.mul_comm]
  have hv : vseqRequired c = 2 * fieldLen c := rfl
  have hk : 2 * lineCount c / 2 = lineCount c := by omega
  have hm : 2 * lineCount c % 2 = 0 := by omega
  simp only [walkAt, hq, hr, hk, hm, if_true]
  simp only [walkEnd, Walk.mk.injEq, true_and, hv, hf]
  omega

theorem walkAt_cursor (c : ConfigRegs) (t : Nat) : (walkAt c t).cursor = walkIndex c t := by
  rcases Nat.mod_two_eq_zero_or_one (t / lineWidth c) with h | h <;>
    simp [Walk.cursor, walkAt, walkIndex, h]

theorem walkAt_row (c : ConfigRegs) (t : Nat) : (walkAt c t).row = t / lineWidth c := by
  simp only [Walk.row, walkAt]
  generalize t / lineWidth c = q
  split <;> simp <;> omega

theorem div_succ_of_lt {t l : Nat} (h : t % l + 1 < l) : (t + 1) / l = t / l ∧ (t + 1) % l = t % l + 1 := by
  have ht : t + 1 = l * (t / l) + (t % l + 1) := by have := Nat.div_add_mod t l; omega
  constructor
  · rw [ht, Nat.mul_add_div (by omega), Nat.div_eq_of_lt h, Nat.add_zero]
  · conv => lhs; rw [ht]
    rw [Nat.mul_add_mod, Nat.mod_eq_of_lt h]

theorem div_succ_of_eq {t l : Nat} (h : t % l + 1 = l) : (t + 1) / l = t / l + 1 ∧ (t + 1) % l = 0 := by
  have ht : t + 1 = l * (t / l + 1) := by
    have := Nat.div_add_mod t l
    rw [Nat.mul_add]
    omega
  constructor
  · rw [ht, Nat.mul_div_cancel_left _ (by omega)]
  · rw [ht]
    exact Nat.mul_mod_right _ _

/-- The advance of `VFETCH` takes the working registers to the next entry. -/
theorem walkAt_advance {c : ConfigRegs} (h : 0 < lineWidth c) (t n : Nat) :
    ({ walkAt c t with c := n } : Walk).advance c = walkAt c (t + 1) := by
  have hlt : t % lineWidth c < lineWidth c := Nat.mod_lt _ h
  by_cases hp : t % lineWidth c + 1 < lineWidth c
  · obtain ⟨hq, hr⟩ := div_succ_of_lt hp
    rcases Nat.mod_two_eq_zero_or_one (t / lineWidth c) with hf | hf <;>
      simp [Walk.advance, Walk.cursor, walkAt, hf, hp, hq, hr] <;> omega
  · have heq : t % lineWidth c + 1 = lineWidth c := by omega
    obtain ⟨hq, hr⟩ := div_succ_of_eq heq
    rcases Nat.mod_two_eq_zero_or_one (t / lineWidth c) with hf | hf
    · have h1 : (t / lineWidth c + 1) % 2 = 1 := by omega
      have h2 : (t / lineWidth c + 1) / 2 = t / lineWidth c / 2 := by omega
      simp [Walk.advance, Walk.cursor, walkAt, hf, hp, hq, hr, h1, h2]
      omega
    · have h1 : (t / lineWidth c + 1) % 2 = 0 := by omega
      have h2 : (t / lineWidth c + 1) / 2 = t / lineWidth c / 2 + 1 := by omega
      simp [Walk.advance, Walk.cursor, walkAt, hf, hp, hq, hr, h1, h2, Nat.add_mul]
      omega

/-- Below `VREQ` the walk is not at its end. -/
theorem walkAt_line_lt {c : ConfigRegs} (h : 0 < lineWidth c) {t : Nat} (ht : t < vseqRequired c) :
    (walkAt c t).k < lineCount c := by
  have hq : t / lineWidth c < 2 * lineCount c := by
    rw [Nat.div_lt_iff_lt_mul h]
    calc t < vseqRequired c := ht
      _ = 2 * lineCount c * lineWidth c := by rw [vseqRequired, fieldLen]; ring
  show t / lineWidth c / 2 < lineCount c
  omega

/-- A line has a row exactly while fewer than `drawnCount` entries have been walked (R130). -/
theorem walkAt_drawn_iff {c : ConfigRegs} (h : 0 < lineWidth c) (t : Nat) :
    (walkAt c t).k + 1 < lineCount c ↔ t < drawnCount c := by
  rw [drawnCount, ← Nat.div_lt_iff_lt_mul h]
  show t / lineWidth c / 2 + 1 < lineCount c ↔ _
  generalize t / lineWidth c = q
  omega

/-- The vector index of a walk step is inside the `VREQ` entries. -/
theorem walkIndex_lt {c : ConfigRegs} (h : 0 < lineWidth c) {t : Nat} (ht : t < vseqRequired c) :
    walkIndex c t < vseqRequired c := by
  have hk : t / lineWidth c / 2 < lineCount c := walkAt_line_lt h ht
  have hr : t % lineWidth c < lineWidth c := Nat.mod_lt _ h
  have hmul : (t / lineWidth c / 2 + 1) * lineWidth c ≤ lineCount c * lineWidth c := Nat.mul_le_mul_right _ hk
  have hf : fieldLen c = lineCount c * lineWidth c := by rw [fieldLen, Nat.mul_comm]
  rw [Nat.add_mul, Nat.one_mul] at hmul
  rcases Nat.mod_two_eq_zero_or_one (t / lineWidth c) with h2 | h2 <;> simp only [walkIndex, vseqRequired, h2] <;> omega

/-! ### One `VFETCH` -/

/-- The state of a running `RENDER.g` with `m` in the destination and working registers `w`. -/
def renderAt (s : State) (g : Group) (m : Memory Byte) (w : Walk) : State :=
  { s with
    raw := s.raw.set g { valid := false, dim := 0#32, mem := m }
    run := .busy (.render g)
    walk := w }

/-- The state after `RENDER.g` has completed with `m` in the destination. -/
def renderDone (s : State) (g : Group) (m : Memory Byte) : State :=
  { s with
    raw := s.raw.set g { valid := true, dim := packDim (planeWidth s.cfg g) (planeHeight s.cfg), mem := m }
    run := .idle
    walk := walkEnd s.cfg }

/-- The state after `RENDER.g` has raised fault `k`, with working registers `w`. -/
def renderFaulted (s : State) (g : Group) (k : FaultKind) (i v : Nat) (w : Walk) : State :=
  { s with
    raw := s.raw.set g Buffer.empty
    run := .fault
    faultRec := { cause := k.word, index := BitVec.ofNat 32 i, value := BitVec.ofNat 32 v }
    walk := w }

theorem renderAt_start (s : State) (g : Group) :
    initWork (.render g) (begin (.render g) s) = renderAt s g [] (walkStart s.cfg) := rfl

/-- `n` channels hold values at address `a`. -/
def channelsHold (s : State) (g : Group) (a : Nat) : Prop := ∀ ch, ch < cpg g → ∃ v, readRom s g ch a = some v

theorem drawSample_undrawn {s : State} {g : Group} {m : Memory Byte} {w : Walk} {a : Nat} {v : Byte}
    (hr : readRom s g w.c a = some v) (hd : ¬ w.k + 1 < lineCount s.cfg) :
    drawSample g a (renderAt s g m w) = .next (renderAt s g m { w with c := w.c + 1 }) := by
  have hr' : readRom (renderAt s g m w) g (renderAt s g m w).walk.c a = some v := hr
  have hl : lineDrawn (renderAt s g m w) = false := by
    show decide (w.k + 1 < lineCount s.cfg) = false
    simp only [hd, decide_false]
  simp only [drawSample, hr', hl, Bool.false_eq_true, if_false]
  rfl

theorem drawSample_drawn {s : State} {g : Group} {m : Memory Byte} {w : Walk} {a : Nat} {v : Byte}
    (hr : readRom s g w.c a = some v) (hd : w.k + 1 < lineCount s.cfg) :
    drawSample g a (renderAt s g m w)
      = .next (renderAt s g (Memory.write m (w.row * planeWidth s.cfg g + w.col g) v) { w with c := w.c + 1 }) := by
  have hr' : readRom (renderAt s g m w) g (renderAt s g m w).walk.c a = some v := hr
  have hl : lineDrawn (renderAt s g m w) = true := by
    show decide (w.k + 1 < lineCount s.cfg) = true
    simp only [hd, decide_true]
  simp only [drawSample, hr', hl, if_true]
  simp only [renderAt, drawAddress, Buffer.write, PerGroup.get_set_same, PerGroup.set_set]

theorem drawSamples_undrawn {s : State} {g : Group} {m : Memory Byte} {a : Nat} (hch : channelsHold s g a) :
    ∀ (j : Nat) (w : Walk), ¬ w.k + 1 < lineCount s.cfg → w.c + j = cpg g →
      drawSamples g a j (renderAt s g m w) = .next (renderAt s g m { w with c := cpg g }) := by
  intro j
  induction j with
  | zero =>
    intro w _ hc
    have hw : ({ w with c := cpg g } : Walk) = w := by rw [← hc]; rfl
    simp only [drawSamples, hw]
  | succ j ih =>
    intro w hd hc
    obtain ⟨v, hr⟩ := hch w.c (by omega)
    simp only [drawSamples, drawSample_undrawn hr hd]
    exact ih { w with c := w.c + 1 } hd (by simp only; omega)

theorem drawSamples_drawn {s : State} {g : Group} {a b : Nat} (hch : channelsHold s g a) :
    ∀ (j : Nat) (w : Walk) (m : Memory Byte), w.k + 1 < lineCount s.cfg → w.c + j = cpg g →
      w.row * planeWidth s.cfg g + w.p * cpg g = b → Memory.full m (b + w.c) →
      ∃ m', Memory.full m' (b + cpg g) ∧ (∀ i, i < b + w.c → Memory.read m' i = Memory.read m i) ∧
        (∀ ch, w.c ≤ ch → ch < cpg g → Memory.read m' (b + ch) = readRom s g ch a) ∧
        drawSamples g a j (renderAt s g m w) = .next (renderAt s g m' { w with c := cpg g }) := by
  intro j
  induction j with
  | zero =>
    intro w m _ hc _ hfull
    have hcc : w.c = cpg g := hc
    have hw : ({ w with c := cpg g } : Walk) = w := by rw [← hcc]
    refine ⟨m, hcc ▸ hfull, fun _ _ => rfl, fun ch h1 h2 => by omega, ?_⟩
    simp only [drawSamples, hw]
  | succ j ih =>
    intro w m hd hc hb hfull
    obtain ⟨v, hr⟩ := hch w.c (by omega)
    have haddr : w.row * planeWidth s.cfg g + w.col g = b + w.c := by simp only [Walk.col]; omega
    obtain ⟨m', hfull', hold, hnew, hrun⟩ :=
      ih { w with c := w.c + 1 } (Memory.write m (b + w.c) v) hd (by simp only; omega) hb
        (Memory.full_write hfull v)
    refine ⟨m', hfull', ?_, ?_, ?_⟩
    · intro i hi
      rw [hold i (by simp only; omega), Memory.read_write_other m v (by omega)]
    · intro ch h1 h2
      by_cases hch' : ch = w.c
      · subst hch'
        rw [hold _ (by simp only; omega), Memory.read_write_same, hr]
      · exact hnew ch (by simp only; omega) h2
    · simp only [drawSamples, drawSample_drawn hr hd, haddr]
      exact hrun

/-- The channels of an undrawn line, from any state: nothing is stored. -/
theorem drawSamples_skip {g : Group} {a : Nat} :
    ∀ (n : Nat) (s : State), channelsHold s g a → ¬ s.walk.k + 1 < lineCount s.cfg → s.walk.c + n = cpg g →
      drawSamples g a n s = .next { s with walk := { s.walk with c := cpg g } } := by
  intro n
  induction n with
  | zero =>
    intro s _ _ hc
    simp only [drawSamples]
    rw [← hc]
    rfl
  | succ n ih =>
    intro s hch hd hc
    obtain ⟨v, hr⟩ := hch s.walk.c (by omega)
    have hl : lineDrawn s = false := by simp only [lineDrawn, hd, decide_false]
    simp only [drawSamples, drawSample, hr, hl]
    rw [show (if false = true then s.raw.set g ((s.raw.get g).write (drawAddress g s) v) else s.raw) = s.raw from rfl,
      ih]
    · exact hch
    · exact hd
    · simp only
      omega

/-- The channels of a drawn line, from any state: one byte each, to the next columns of the row, and to no other element. -/
theorem drawSamples_store {g : Group} {a : Nat} :
    ∀ (n : Nat) (s : State), channelsHold s g a → s.walk.k + 1 < lineCount s.cfg → s.walk.c + n = cpg g →
      ∃ m, drawSamples g a n s
          = .next { s with raw := s.raw.set g { s.raw.get g with mem := m }, walk := { s.walk with c := cpg g } } ∧
        (∀ c, s.walk.c ≤ c → c < cpg g →
          Memory.read m (s.walk.row * planeWidth s.cfg g + (s.walk.p * cpg g + c)) = readRom s g c a) ∧
        (∀ i, (∀ c, s.walk.c ≤ c → c < cpg g → i ≠ s.walk.row * planeWidth s.cfg g + (s.walk.p * cpg g + c)) →
          Memory.read m i = Memory.read (s.raw.get g).mem i) := by
  intro n
  induction n with
  | zero =>
    intro s _ _ hc
    refine ⟨(s.raw.get g).mem, ?_, fun c h1 h2 => by omega, fun _ _ => rfl⟩
    simp only [drawSamples]
    rw [← hc]
    show Host.Outcome.next s = Host.Outcome.next { s with raw := s.raw.set g (s.raw.get g) }
    rw [PerGroup.set_get]
  | succ n ih =>
    intro s hch hd hc
    obtain ⟨v, hr⟩ := hch s.walk.c (by omega)
    have hl : lineDrawn s = true := by simp only [lineDrawn, hd, decide_true]
    obtain ⟨m, hrun, hnew, hold⟩ :=
      ih { s with
        raw := s.raw.set g ((s.raw.get g).write (drawAddress g s) v)
        walk := { s.walk with c := s.walk.c + 1 } } hch hd (by simp only; omega)
    refine ⟨m, ?_, ?_, ?_⟩
    · simp only [drawSamples, drawSample, hr, hl]
      simp only [if_true]
      rw [hrun]
      simp [Buffer.write]
    · intro c h1 h2
      by_cases hcc : c = s.walk.c
      · subst hcc
        rw [hold]
        · simp [Buffer.write, drawAddress, Walk.col, hr]
        · intro c h3 _
          simp only at h3
          simp only [Walk.row]
          omega
      · exact hnew c (by simp only; omega) h2
    · intro i hi
      rw [hold]
      · simp only [PerGroup.get_set_same, Buffer.write]
        rw [Memory.read_write_other]
        exact hi s.walk.c le_rfl (by omega)
      · intro c h1 h2
        simp only at h1
        exact hi c (by omega) h2

/-! ### The loop (R127, R128) -/

/-- What the destination holds when `t` entries have been walked: the samples of the drawn ones, in element order. -/
def drawnUpTo (s : State) (g : Group) (m : Memory Byte) (t : Nat) : Prop :=
  Memory.full m (cpg g * min t (drawnCount s.cfg)) ∧
    ∀ i, i < cpg g * min t (drawnCount s.cfg) →
      Memory.read m i = sampleAt s g (walkIndex s.cfg (i / cpg g)) (i % cpg g)

/-- The walk's step `t` is in range for group `g`, with entry value `a`. -/
def stepInRange (s : State) (g : Group) (t : Nat) (a : Word16) : Prop :=
  readVseq s (walkIndex s.cfg t) = some a ∧ a.toNat < (s.rom.get g).len.toNat

theorem walkAt_address {c : ConfigRegs} (g : Group) (t : Nat) :
    (walkAt c t).row * planeWidth c g + (walkAt c t).p * cpg g = cpg g * t := by
  rw [walkAt_row]
  show t / lineWidth c * (lineWidth c * cpg g) + t % lineWidth c * cpg g = cpg g * t
  have := Nat.div_add_mod t (lineWidth c)
  calc t / lineWidth c * (lineWidth c * cpg g) + t % lineWidth c * cpg g
      = cpg g * (lineWidth c * (t / lineWidth c) + t % lineWidth c) := by ring
    _ = cpg g * t := by rw [this]

/-- A `VFETCH` of the walk in range: the working registers and the drawn samples go to the next entry. -/
theorem vfetch_in_range {s : State} {g : Group} {m : Memory Byte} {t : Nat} {a : Word16}
    (hl : 0 < lineWidth s.cfg) (hstep : stepInRange s g t a) (hch : channelsHold s g a.toNat)
    (hm : drawnUpTo s g m t) :
    ∃ m', drawnUpTo s g m' (t + 1) ∧
      vfetch g a (renderAt s g m (walkAt s.cfg t)) = .next (renderAt s g m' (walkAt s.cfg (t + 1))) := by
  have hbound : ¬ ((renderAt s g m (walkAt s.cfg t)).rom.get g).len.toNat ≤ a.toNat := by
    have := hstep.2
    show ¬ (s.rom.get g).len.toNat ≤ a.toNat
    omega
  have hw0 : ({ walkAt s.cfg t with c := 0 } : Walk) = walkAt s.cfg t := rfl
  have hentry : { renderAt s g m (walkAt s.cfg t) with
      walk := { (renderAt s g m (walkAt s.cfg t)).walk with c := 0 } } = renderAt s g m (walkAt s.cfg t) := rfl
  have hcp := cpg_pos g
  by_cases hd : (walkAt s.cfg t).k + 1 < lineCount s.cfg
  · have ht : t < drawnCount s.cfg := (walkAt_drawn_iff hl t).mp hd
    have hmin : min t (drawnCount s.cfg) = t := by omega
    have hmin' : min (t + 1) (drawnCount s.cfg) = t + 1 := by omega
    obtain ⟨hfull, hval⟩ := hm
    rw [hmin] at hfull hval
    obtain ⟨m', hfull', hold, hnew, hrun⟩ :=
      drawSamples_drawn hch (cpg g) (walkAt s.cfg t) m hd (Nat.zero_add _) (walkAt_address g t) hfull
    refine ⟨m', ⟨?_, ?_⟩, ?_⟩
    · rw [hmin', Nat.mul_succ]
      exact hfull'
    · rw [hmin', Nat.mul_succ]
      intro i hi
      by_cases hi' : i < cpg g * t
      · rw [hold i hi', hval i hi']
      · obtain ⟨ch, rfl⟩ : ∃ ch, i = cpg g * t + ch := ⟨i - cpg g * t, by omega⟩
        have hlt : ch < cpg g := by omega
        rw [hnew ch (Nat.zero_le _) hlt, Nat.mul_add_div hcp, Nat.div_eq_of_lt hlt, Nat.add_zero,
          Nat.mul_add_mod, Nat.mod_eq_of_lt hlt]
        simp only [sampleAt, hstep.1]
    · rw [vfetch, if_neg hbound, hentry, hrun]
      show Host.Outcome.next (renderAt s g m' (({ walkAt s.cfg t with c := cpg g } : Walk).advance s.cfg)) = _
      rw [walkAt_advance hl]
  · have ht : ¬ t < drawnCount s.cfg := fun h => hd ((walkAt_drawn_iff hl t).mpr h)
    have hmin : min t (drawnCount s.cfg) = drawnCount s.cfg := by omega
    have hmin' : min (t + 1) (drawnCount s.cfg) = drawnCount s.cfg := by omega
    refine ⟨m, ?_, ?_⟩
    · rw [drawnUpTo, hmin']
      rw [drawnUpTo, hmin] at hm
      exact hm
    · rw [vfetch, if_neg hbound, hentry, drawSamples_undrawn hch (cpg g) (walkAt s.cfg t) hd (Nat.zero_add _)]
      show Host.Outcome.next (renderAt s g m (({ walkAt s.cfg t with c := cpg g } : Walk).advance s.cfg)) = _
      rw [walkAt_advance hl]

/-- An elementary step of the walk is the `VFETCH` of its entry. -/
theorem renderMicro_vfetch {s : State} {g : Group} {m : Memory Byte} {t : Nat} {a : Word16}
    (hl : 0 < lineWidth s.cfg) (ht : t < vseqRequired s.cfg)
    (hread : readVseq s (walkIndex s.cfg t) = some a) :
    renderMicro g (renderAt s g m (walkAt s.cfg t)) = vfetch g a (renderAt s g m (walkAt s.cfg t)) := by
  have hdone : walkDone (renderAt s g m (walkAt s.cfg t)) = false := by
    have := walkAt_line_lt hl ht
    show decide (lineCount s.cfg ≤ (walkAt s.cfg t).k) = false
    simp only [decide_eq_false_iff_not]
    omega
  have hread' : readVseq (renderAt s g m (walkAt s.cfg t)) (renderAt s g m (walkAt s.cfg t)).walk.cursor = some a := by
    show readVseq s (walkAt s.cfg t).cursor = some a
    rw [walkAt_cursor, hread]
  simp only [renderMicro, hdone, Bool.false_eq_true, if_false, hread']

/-- An entry out of range raises its fault, whatever has been drawn. -/
theorem renderMicro_out_of_range {s : State} {g : Group} {m : Memory Byte} {t : Nat} {a : Word16}
    (hl : 0 < lineWidth s.cfg) (ht : t < vseqRequired s.cfg)
    (hread : readVseq s (walkIndex s.cfg t) = some a) (hout : (s.rom.get g).len.toNat ≤ a.toNat) :
    renderMicro g (renderAt s g m (walkAt s.cfg t))
      = .next (renderFaulted s g (.romIndexOutOfRange g) (walkIndex s.cfg t) a.toNat (walkAt s.cfg t)) := by
  rw [renderMicro_vfetch hl ht hread, vfetch]
  have hout' : ((renderAt s g m (walkAt s.cfg t)).rom.get g).len.toNat ≤ a.toNat := hout
  rw [if_pos hout', ← walkAt_cursor]
  simp only [renderAt, raise, dropDest, clearDest, PerGroup.set_set, renderFaulted]

theorem renderMicro_complete (s : State) (g : Group) (m : Memory Byte) :
    renderMicro g (renderAt s g m (walkEnd s.cfg)) = .next (renderDone s g m) := by
  have hdone : walkDone (renderAt s g m (walkEnd s.cfg)) = true := by
    show decide (lineCount s.cfg ≤ lineCount s.cfg) = true
    simp
  simp only [renderMicro, hdone, if_true]
  simp only [complete, renderAt, renderDone, Buffer.complete, PerGroup.get_set_same, PerGroup.set_set]

/-- The loop of `RENDER.g` up to step `q`, when every step before it is in range. -/
theorem render_reaches {s : State} {g : Group} {q : Nat} (hl : 0 < lineWidth s.cfg) (hq : q ≤ vseqRequired s.cfg)
    (hsteps : ∀ t, t < q → ∃ a, stepInRange s g t a ∧ channelsHold s g a.toNat) (fuel : Nat) :
    ∃ m, drawnUpTo s g m q ∧
      runWhileBusy (renderMicro g) (fuel + q) (renderAt s g [] (walkAt s.cfg 0))
        = runWhileBusy (renderMicro g) fuel (renderAt s g m (walkAt s.cfg q)) := by
  let P : Nat → State → Prop := fun t x => ∃ m, x = renderAt s g m (walkAt s.cfg t) ∧ drawnUpTo s g m t
  have hbusy : ∀ t x, P t x → x.run.isBusy = true := by
    rintro t x ⟨m, rfl, -⟩
    rfl
  have hstep : ∀ t x, t < q → P t x → ∃ y, renderMicro g x = .next y ∧ P (t + 1) y := by
    rintro t x ht ⟨m, rfl, hm⟩
    obtain ⟨a, ha, hch⟩ := hsteps t ht
    obtain ⟨m', hm', hv⟩ := vfetch_in_range hl ha hch hm
    exact ⟨_, (renderMicro_vfetch hl (by omega) ha.1).trans hv, m', rfl, hm'⟩
  have hstart : P 0 (renderAt s g [] (walkAt s.cfg 0)) := by
    refine ⟨[], rfl, ?_, ?_⟩ <;> simp [Memory.full]
  obtain ⟨y, ⟨m, rfl, hm⟩, hrun⟩ := runWhileBusy_reach hbusy hstep q 0 _ fuel (by omega) hstart
  exact ⟨m, hm, hrun⟩

/-- An accepted `RENDER.g` with too short a sequence raises `SEQ_TOO_SHORT` before any entry is read (R123). -/
theorem render_too_short {s : State} {g : Group} (hacc : rejection (.render g) s = none)
    (hshort : s.vseq.len.toNat < vseqRequired s.cfg) :
    render g s
      = .next (renderFaulted s g (.seqTooShort g) s.vseq.len.toNat (vseqRequired s.cfg) s.walk) := by
  have hcheck : renderCheck g (begin (.render g) s) = some (.seqTooShort g, s.vseq.len.toNat, vseqRequired s.cfg) := by
    show (if s.vseq.len.toNat < vseqRequired s.cfg then _ else _) = _
    rw [if_pos hshort]
    rfl
  rw [render, runCommand_accepted hacc, runBegun_raises hcheck]
  simp only [raise, dropDest, begin, clearDest, PerGroup.set_set, renderFaulted]

theorem render_runs {s : State} {g : Group} (hacc : rejection (.render g) s = none)
    (hlen : vseqRequired s.cfg ≤ s.vseq.len.toNat) :
    render g s = runWhileBusy (renderMicro g) (vseqRequired s.cfg + 1) (renderAt s g [] (walkStart s.cfg)) := by
  have hcheck : renderCheck g (begin (.render g) s) = none := by
    show (if s.vseq.len.toNat < vseqRequired s.cfg then _ else _) = _
    rw [if_neg (by omega)]
  rw [render, runCommand_accepted hacc, runBegun_runs hcheck, renderAt_start]
  rfl

/-- What an accepted `RENDER.g` answers when every entry it walks is in range: the whole plane. -/
theorem render_completes {s : State} {g : Group} (hacc : rejection (.render g) s = none)
    (hlen : vseqRequired s.cfg ≤ s.vseq.len.toNat)
    (hsteps : ∀ t, t < vseqRequired s.cfg → ∃ a, stepInRange s g t a ∧ channelsHold s g a.toNat) :
    ∃ m, drawnUpTo s g m (vseqRequired s.cfg) ∧ render g s = .next (renderDone s g m) := by
  rw [render_runs hacc hlen]
  rcases Nat.eq_zero_or_pos (lineWidth s.cfg) with h0 | hl
  · have hreq : vseqRequired s.cfg = 0 := by simp [vseqRequired, fieldLen, h0]
    refine ⟨[], ⟨?_, ?_⟩, ?_⟩
    · simp [hreq, Memory.full]
    · simp [hreq]
    · rw [walkStart_empty h0, hreq, runWhileBusy_next rfl (renderMicro_complete s g [])]
      exact runWhileBusy_stops 0 rfl
  · obtain ⟨m, hm, hrun⟩ := render_reaches hl (le_refl _) hsteps 1
    refine ⟨m, hm, ?_⟩
    rw [walkStart_eq hl, Nat.add_comm, hrun, walkAt_end hl, runWhileBusy_next rfl (renderMicro_complete s g m)]
    exact runWhileBusy_stops 0 rfl

/-- What an accepted `RENDER.g` answers when step `q` is the first out of range: the fault with its index and value. -/
theorem render_out_of_range {s : State} {g : Group} {q : Nat} {a : Word16} (hacc : rejection (.render g) s = none)
    (hlen : vseqRequired s.cfg ≤ s.vseq.len.toNat) (hq : q < vseqRequired s.cfg)
    (hsteps : ∀ t, t < q → ∃ b, stepInRange s g t b ∧ channelsHold s g b.toNat)
    (hread : readVseq s (walkIndex s.cfg q) = some a) (hout : (s.rom.get g).len.toNat ≤ a.toNat) :
    render g s
      = .next (renderFaulted s g (.romIndexOutOfRange g) (walkIndex s.cfg q) a.toNat (walkAt s.cfg q)) := by
  have hl : 0 < lineWidth s.cfg := by
    rcases Nat.eq_zero_or_pos (lineWidth s.cfg) with h0 | hl
    · simp [vseqRequired, fieldLen, h0] at hq
    · exact hl
  obtain ⟨m, -, hrun⟩ := render_reaches hl (le_of_lt hq) hsteps (vseqRequired s.cfg - q + 1)
  have hfuel : vseqRequired s.cfg + 1 = vseqRequired s.cfg - q + 1 + q := by omega
  rw [render_runs hacc hlen, walkStart_eq hl, hfuel, hrun,
    runWhileBusy_next rfl (renderMicro_out_of_range hl hq hread hout)]
  exact runWhileBusy_stops _ rfl

/-- An accepted `RENDER.g` on a state whose stores hold their values raises one of its two faults or completes. -/
theorem render_accepted_cases {s : State} {g : Group} (hacc : rejection (.render g) s = none)
    (hv : s.vseq.Inv) (hr : (s.rom.get g).Inv g) :
    (s.vseq.len.toNat < vseqRequired s.cfg ∧
      render g s = .next (renderFaulted s g (.seqTooShort g) s.vseq.len.toNat (vseqRequired s.cfg) s.walk)) ∨
    (vseqRequired s.cfg ≤ s.vseq.len.toNat ∧ ∃ q a, q < vseqRequired s.cfg ∧
      (∀ t, t < q → ∃ b, stepInRange s g t b ∧ channelsHold s g b.toNat) ∧
      readVseq s (walkIndex s.cfg q) = some a ∧ (s.rom.get g).len.toNat ≤ a.toNat ∧
      render g s
        = .next (renderFaulted s g (.romIndexOutOfRange g) (walkIndex s.cfg q) a.toNat (walkAt s.cfg q))) ∨
    (vseqRequired s.cfg ≤ s.vseq.len.toNat ∧
      (∀ t, t < vseqRequired s.cfg → ∃ a, stepInRange s g t a ∧ channelsHold s g a.toNat) ∧
      ∃ m, drawnUpTo s g m (vseqRequired s.cfg) ∧ render g s = .next (renderDone s g m)) := by
  obtain ⟨-, -, hvalid⟩ := (rejection_eq_none_iff _ _).mp hacc
  obtain ⟨hromv, hvseqv⟩ : (s.rom.get g).valid = true ∧ s.vseq.valid = true := by
    simpa [inputsValid] using hvalid
  rcases Nat.lt_or_ge s.vseq.len.toNat (vseqRequired s.cfg) with hshort | hlen
  · exact Or.inl ⟨hshort, render_too_short hacc hshort⟩
  refine Or.inr ?_
  have hread : ∀ t, t < vseqRequired s.cfg → ∃ a, readVseq s (walkIndex s.cfg t) = some a := by
    intro t ht
    rcases Nat.eq_zero_or_pos (lineWidth s.cfg) with h0 | hl
    · simp [vseqRequired, fieldLen, h0] at ht
    · exact readVseq_of_inv hv hvseqv (by have := walkIndex_lt hl ht; omega)
  have hchan : ∀ a : Word16, a.toNat < (s.rom.get g).len.toNat → channelsHold s g a.toNat :=
    fun a ha ch hch => readRom_of_inv hr hromv hch ha
  by_cases hall : ∀ t, t < vseqRequired s.cfg → ∃ a, stepInRange s g t a
  · have hsteps : ∀ t, t < vseqRequired s.cfg → ∃ a, stepInRange s g t a ∧ channelsHold s g a.toNat := by
      intro t ht
      obtain ⟨a, ha⟩ := hall t ht
      exact ⟨a, ha, hchan a ha.2⟩
    exact Or.inr ⟨hlen, hsteps, render_completes hacc hlen hsteps⟩
  · refine Or.inl ⟨hlen, ?_⟩
    classical
    push Not at hall
    have hex : ∃ t, t < vseqRequired s.cfg ∧ ∀ a, ¬ stepInRange s g t a := hall
    obtain ⟨hq, hnone⟩ := Nat.find_spec hex
    obtain ⟨a, ha⟩ := hread _ hq
    have hout : (s.rom.get g).len.toNat ≤ a.toNat := by
      by_contra hlt
      exact hnone a ⟨ha, by omega⟩
    have hbefore : ∀ t, t < Nat.find hex → ∃ b, stepInRange s g t b ∧ channelsHold s g b.toNat := by
      intro t ht
      by_contra hno
      refine Nat.find_min hex ht ⟨by omega, fun b hb => hno ⟨b, hb, hchan b hb.2⟩⟩
    exact ⟨_, a, hq, hbefore, ha, hout, render_out_of_range hacc hlen hq hbefore ha hout⟩

end Sys2Proof.Machine
end

