-- ==== Sys2Proof/Laws/Step.lean ====
section
/-! SUPPORT. What an issued command and a step can do, said once: the cases of `exec` on a command, of the fetch, and of a
host transaction. -/

namespace Sys2Proof.Machine

theorem exec_render (g : Group) (s : State) : exec (jobInstr (.render g)) s = render g s := by cases g <;> rfl

theorem exec_norm (g : Group) (s : State) : exec (jobInstr (.norm g)) s = norm g s := by cases g <;> rfl

/-- Every command is its job, run by the one shared operation. -/
theorem exec_job (j : Job) (s : State) : exec (jobInstr j) s = runCommand j (jobCheck j) (jobMicro j) s := by
  cases j with
  | render g => exact exec_render g s
  | norm g => exact exec_norm g s
  | compose => rfl

/-- A command that is not accepted is refused with its reason. -/
theorem exec_job_refused {j : Job} {s : State} {r : RefuseReason} (h : rejection j s = some r) :
    exec (jobInstr j) s = .next (refuse r s) := by
  rw [exec_job, runCommand_refused h]

/-- Every instruction is a command's or a vector entry. -/
theorem instr_cases (i : Instr) : (∃ j, i = jobInstr j) ∨ ∃ a, i = .vfetch a := by
  cases i with
  | renderY => exact .inl ⟨.render .y, rfl⟩
  | renderRY => exact .inl ⟨.render .ry, rfl⟩
  | renderBY => exact .inl ⟨.render .bY, rfl⟩
  | normY => exact .inl ⟨.norm .y, rfl⟩
  | normRY => exact .inl ⟨.norm .ry, rfl⟩
  | normBY => exact .inl ⟨.norm .bY, rfl⟩
  | compose => exact .inl ⟨.compose, rfl⟩
  | vfetch a => exact .inr ⟨a, rfl⟩

/-- A command word decodes to a command, never to `VFETCH`. -/
theorem decodeCommand_job {w : Byte} {i : Instr} (h : decodeCommand w = .ok i) : ∃ j, i = jobInstr j := by
  simp only [decodeCommand, decodeRender, decodeNorm, decodeCompose] at h
  repeat' split at h
  all_goals cases h
  · exact ⟨.render .y, rfl⟩
  · exact ⟨.render .ry, rfl⟩
  · exact ⟨.render .bY, rfl⟩
  · exact ⟨.norm .y, rfl⟩
  · exact ⟨.norm .ry, rfl⟩
  · exact ⟨.norm .bY, rfl⟩
  · exact ⟨.compose, rfl⟩

/-- What the fetch of a host transaction can be: no move for an ill-formed one, the command's refusal or its instruction for a
write to `CMD`, the transaction itself otherwise. -/
theorem fetchTransaction_cases (t : Transaction) (s : State) :
    (t.wf = false ∧ fetchTransaction t s = .answer (.refused .illFormedTransaction)) ∨
    (t.wf = true ∧ ∃ v, t = .writeReg cmdNumber v ∧ fetchTransaction t s = fetchCommand (BitVec.ofNat 8 v) s) ∨
    (t.wf = true ∧ (∀ v, t ≠ .writeReg cmdNumber v) ∧ fetchTransaction t s = .answer (.next (transact t s))) := by
  by_cases hwf : t.wf = true
  · refine Or.inr ?_
    have hne : ¬ t.wf = false := by simp [hwf]
    cases t with
    | writeReg n v =>
      by_cases hn : n = cmdNumber
      · subst hn
        exact Or.inl ⟨hwf, v, rfl, by simp [fetchTransaction, hwf]⟩
      · refine Or.inr ⟨hwf, ?_, by simp [fetchTransaction, hwf, hn]⟩
        rintro v' h
        cases h
        exact hn rfl
    | _ => exact Or.inr ⟨hwf, by simp, by simp [fetchTransaction, hwf]⟩
  · exact Or.inl ⟨by simpa using hwf, by simp [fetchTransaction, hwf]⟩

/-- What a command word written to `CMD` does in a step: the command, or the refusal of a reserved word. -/
theorem fetchCommand_cases (w : Byte) (s : State) :
    (∃ j, decodeCommand w = .ok (jobInstr j) ∧ fetchCommand w s = .instr (jobInstr j) s) ∨
    (∃ e, decodeCommand w = .error e ∧ fetchCommand w s = .answer (.next (refuse (reservedRejection s) s))) := by
  cases h : decodeCommand w with
  | error e => exact Or.inr ⟨e, rfl, by simp [fetchCommand, h]⟩
  | ok i =>
    obtain ⟨j, rfl⟩ := decodeCommand_job h
    exact Or.inl ⟨j, rfl, by simp [fetchCommand, h]⟩

theorem resetPending_cons_iff (s : State) :
    resetPending s = true ↔ ∃ rest, s.inbox = .reset :: rest := by
  unfold resetPending
  split
  · rename_i rest h
    simp [h]
  · rename_i h
    constructor
    · intro hf
      cases hf
    · rintro ⟨rest, hr⟩
      exact absurd hr (h rest)

/-- While no command runs the host is served. -/
theorem fetch_of_not_busy {s : State} (hb : s.run.isBusy = false) : fetch s = fetchHost s := by
  unfold fetch
  split
  · rfl
  · rcases (isBusy_false_iff s.run).mp hb with h | h <;> simp [h]

theorem commandIssue_wf (w : Byte) : (commandIssue w).wf = true := by
  have := w.isLt
  simp [commandIssue, Transaction.wf, writeFits, writeWidth, cmdNumber]
  omega

/-- A command issue at the head of the inbox is fetched as its command word. -/
theorem fetch_commandIssue {s : State} {w : Byte} {rest : List Transaction} (h : s.inbox = commandIssue w :: rest)
    (hb : s.run.isBusy = false) : fetch s = fetchCommand w { s with inbox := rest } := by
  rw [fetch_of_not_busy hb]
  simp only [fetchHost, h, fetchTransaction, commandIssue_wf]
  simp [commandIssue]

/-- A step while no command runs: nothing to do, no move, a command, a reserved word, or another transaction. -/
theorem step_not_busy_cases {s : State} (hb : s.run.isBusy = false) :
    (s.inbox = [] ∧ step s = .next s) ∨
    (∃ t rest, s.inbox = t :: rest ∧ t.wf = false ∧ step s = .refused .illFormedTransaction) ∨
    (∃ j rest, step s = exec (jobInstr j) { s with inbox := rest } ∧ ∃ t, s.inbox = t :: rest ∧ t ≠ .reset) ∨
    (∃ rest, step s = .next (refuse (reservedRejection s) { s with inbox := rest }) ∧
      ∃ t, s.inbox = t :: rest ∧ t ≠ .reset) ∨
    (∃ t rest, s.inbox = t :: rest ∧ t.wf = true ∧ step s = .next (transact t { s with inbox := rest })) := by
  have hfetch := fetch_of_not_busy hb
  cases hin : s.inbox with
  | nil => exact Or.inl ⟨rfl, by simp [step, hfetch, fetchHost, hin]⟩
  | cons t rest =>
    have hft : fetch s = fetchTransaction t { s with inbox := rest } := by simp [hfetch, fetchHost, hin]
    rcases fetchTransaction_cases t { s with inbox := rest } with ⟨hwf, h⟩ | ⟨hwf, v, rfl, h⟩ | ⟨hwf, -, h⟩
    · exact Or.inr (Or.inl ⟨t, rest, rfl, hwf, by simp [step, hft, h]⟩)
    · rcases fetchCommand_cases (BitVec.ofNat 8 v) { s with inbox := rest } with ⟨j, -, hc⟩ | ⟨e, -, hc⟩
      · exact Or.inr (Or.inr (Or.inl ⟨j, rest, by simp [step, hft, h, hc], _, rfl, by simp⟩))
      · exact Or.inr (Or.inr (Or.inr (Or.inl ⟨rest, by simp [step, hft, h, hc, reservedRejection], _, rfl, by simp⟩)))
    · exact Or.inr (Or.inr (Or.inr (Or.inr ⟨t, rest, rfl, hwf, by simp [step, hft, h]⟩)))

/-- What a transaction on a block that runs no command does, field group by field group, is said by its own definition; outside IDLE
a write or a load changes nothing. -/
theorem whenIdle_of_ne {s s' : State} (h : s.run ≠ .idle) : whenIdle s s' = s := if_neg h

theorem whenIdle_of_idle {s s' : State} (h : s.run = .idle) : whenIdle s s' = s' := if_pos h

end Sys2Proof.Machine
end

