-- ==== Sys2Proof/Laws/Frame.lean ====
section
/-! SUPPORT. What a command can change, from any state: its destination, the run state, the fault record and its working
registers, and nothing else; what remains is as it was. -/

namespace Sys2Proof.Machine

/-- `t` is `s` with `RAW[g]`, the run state, the fault record and the working registers of U1 replaced; a command that still runs
is `RENDER.g`, and the destination's memory is canonical if it was. -/
def RenderChange (g : Group) (s t : State) : Prop :=
  ∃ b r fr w, t = { s with raw := s.raw.set g b, run := r, faultRec := fr, walk := w } ∧
    (Memory.wf (s.raw.get g).mem → Memory.wf b.mem) ∧ (r.isBusy = true → r = .busy (.render g))

/-- The same for `NRM[g]` and `NORM.g`. -/
def NormChange (g : Group) (s t : State) : Prop :=
  ∃ b r fr n, t = { s with nrm := s.nrm.set g b, run := r, faultRec := fr, normIdx := n } ∧
    (Memory.wf (s.nrm.get g).mem → Memory.wf b.mem) ∧ (r.isBusy = true → r = .busy (.norm g))

/-- The same for `RGB` and `COMPOSE`. -/
def ComposeChange (s t : State) : Prop :=
  ∃ b r fr n, t = { s with rgb := b, run := r, faultRec := fr, compIdx := n } ∧
    (Memory.wf s.rgb.mem → Memory.wf b.mem) ∧ (r.isBusy = true → r = .busy .compose)

/-- What command `j` can change. -/
def JobChange (j : Job) (s t : State) : Prop :=
  match j with
  | .render g => RenderChange g s t
  | .norm g => NormChange g s t
  | .compose => ComposeChange s t

theorem JobChange.trans {j : Job} {s t u : State} (h : JobChange j s t) (h' : JobChange j t u) : JobChange j s u := by
  cases j with
  | render g =>
    obtain ⟨b, r, fr, w, rfl, hb, -⟩ := h
    obtain ⟨b', r', fr', w', rfl, hb', hr'⟩ := h'
    exact ⟨b', r', fr', w', by simp, fun hw => hb' (by simpa using hb hw), hr'⟩
  | norm g =>
    obtain ⟨b, r, fr, w, rfl, hb, -⟩ := h
    obtain ⟨b', r', fr', w', rfl, hb', hr'⟩ := h'
    exact ⟨b', r', fr', w', by simp, fun hw => hb' (by simpa using hb hw), hr'⟩
  | compose =>
    obtain ⟨b, r, fr, w, rfl, hb, -⟩ := h
    obtain ⟨b', r', fr', w', rfl, hb', hr'⟩ := h'
    exact ⟨b', r', fr', w', rfl, fun hw => hb' (hb hw), hr'⟩

theorem JobChange.refl {j : Job} {s : State} (h : s.run.isBusy = true → s.run = .busy j) : JobChange j s s := by
  cases j with
  | render g => exact ⟨s.raw.get g, s.run, s.faultRec, s.walk, by simp, id, h⟩
  | norm g => exact ⟨s.nrm.get g, s.run, s.faultRec, s.normIdx, by simp, id, h⟩
  | compose => exact ⟨s.rgb, s.run, s.faultRec, s.compIdx, rfl, id, h⟩

theorem JobChange.run_of_busy {j : Job} {s t : State} (h : JobChange j s t) (hb : t.run.isBusy = true) :
    t.run = .busy j := by
  cases j <;> obtain ⟨b, r, fr, w, rfl, -, hr⟩ := h <;> exact hr hb

/-- The mailboxes and the refusal record are none of a running command's business. -/
theorem JobChange.keeps {j : Job} {s t : State} (h : JobChange j s t) :
    t.inbox = s.inbox ∧ t.outbox = s.outbox ∧ t.refused = s.refused ∧ t.refuseReason = s.refuseReason ∧ t.cfg = s.cfg := by
  cases j <;> obtain ⟨b, r, fr, w, rfl, -, -⟩ := h <;> exact ⟨rfl, rfl, rfl, rfl, rfl⟩

theorem drawSamples_change {g : Group} {a : Nat} :
    ∀ (n : Nat) (s t : State), drawSamples g a n s = .next t →
      ∃ b w, t = { s with raw := s.raw.set g b, walk := { s.walk with c := w } } ∧
        (Memory.wf (s.raw.get g).mem → Memory.wf b.mem) := by
  intro n
  induction n with
  | zero =>
    intro s t h
    cases h
    exact ⟨s.raw.get g, s.walk.c, by simp, id⟩
  | succ n ih =>
    intro s t h
    simp only [drawSamples, drawSample] at h
    cases hr : readRom s g s.walk.c a with
    | none => simp [hr] at h
    | some v =>
      simp only [hr] at h
      obtain ⟨b, w, rfl, hw⟩ := ih _ _ h
      by_cases hl : lineDrawn s = true
      · simp only [hl, if_true] at hw ⊢
        exact ⟨b, w, by simp, fun hm => hw (by simpa [Buffer.write] using Memory.wf_write hm _ _)⟩
      · simp only [hl] at hw ⊢
        exact ⟨b, w, by simp, fun hm => hw (by simpa using hm)⟩

/-- A raised fault empties the destination and stops. -/
theorem raise_change {j : Job} {k : FaultKind} {i v : Nat} {s : State} (hrun : s.run = .busy j) :
    JobChange j s (raise k i v s) := by
  cases j with
  | render g =>
    exact ⟨Buffer.empty, .fault, _, s.walk, by simp only [raise, dropDest, hrun, clearDest]; rfl,
      fun _ => Memory.wf_nil, fun h => by cases h⟩
  | norm g =>
    exact ⟨Buffer.empty, .fault, _, s.normIdx, by simp only [raise, dropDest, hrun, clearDest]; rfl,
      fun _ => Memory.wf_nil, fun h => by cases h⟩
  | compose =>
    exact ⟨Buffer.empty, .fault, _, s.compIdx, by simp only [raise, dropDest, hrun, clearDest]; rfl,
      fun _ => Memory.wf_nil, fun h => by cases h⟩

theorem vfetch_change {g : Group} {a : Word16} {s t : State} (hrun : s.run = .busy (.render g))
    (h : vfetch g a s = .next t) : JobChange (.render g) s t := by
  unfold vfetch at h
  split at h
  · cases h
    exact raise_change hrun
  · split at h
    · rename_i s' hs
      cases h
      obtain ⟨b, w, rfl, hw⟩ := drawSamples_change _ _ _ hs
      exact ⟨b, s.run, s.faultRec, _, rfl, hw, fun _ => hrun⟩
    · cases h
    · cases h

/-- What an elementary step of a running command can change. -/
theorem jobMicro_change {j : Job} {s t : State} (hrun : s.run = .busy j) (h : jobMicro j s = .next t) :
    JobChange j s t := by
  cases j with
  | render g =>
    simp only [jobMicro, renderMicro] at h
    split at h
    · cases h
      exact ⟨_, .idle, s.faultRec, s.walk, rfl, id, fun h => by cases h⟩
    · split at h
      · cases h
      · exact vfetch_change hrun h
  | norm g =>
    simp only [jobMicro, normMicro, normPixel] at h
    split at h
    · cases h
      exact ⟨_, .idle, s.faultRec, s.normIdx, rfl, id, fun h => by cases h⟩
    · split at h
      · cases h
      · split at h
        · cases h
          exact raise_change hrun
        · cases h
          exact ⟨_, s.run, s.faultRec, _, rfl, fun hm => Memory.wf_write hm _ _, fun _ => hrun⟩
  | compose =>
    simp only [jobMicro, composeMicro, composeElement] at h
    split at h
    · cases h
      exact ⟨_, .idle, s.faultRec, s.compIdx, rfl, id, fun h => by cases h⟩
    · split at h
      · cases h
        exact ⟨_, s.run, s.faultRec, _, rfl, fun hm => Memory.wf_write hm _ _, fun _ => hrun⟩
      all_goals cases h

theorem runWhileBusy_change {j : Job} :
    ∀ (n : Nat) (s t : State), (s.run.isBusy = true → s.run = .busy j) →
      runWhileBusy (jobMicro j) n s = .next t → JobChange j s t := by
  intro n
  induction n with
  | zero =>
    intro s t hb h
    cases h
    exact .refl hb
  | succ n ih =>
    intro s t hb h
    unfold runWhileBusy at h
    split at h
    · rename_i hbusy
      split at h
      · rename_i s' hs
        have h1 := jobMicro_change (hb hbusy) hs
        exact h1.trans (ih _ _ h1.run_of_busy h)
      · cases h
      · cases h
    · cases h
      exact .refl hb

@[simp] theorem begin_run_busy (j : Job) (s : State) : (begin j s).run = .busy j := by cases j <;> rfl

theorem initWork_begin_run (j : Job) (s : State) : (initWork j (begin j s)).run = .busy j := by cases j <;> rfl

theorem begin_change (j : Job) (s : State) : JobChange j s (begin j s) := by
  cases j with
  | render g => exact ⟨Buffer.empty, _, s.faultRec, s.walk, rfl, fun _ => Memory.wf_nil, fun _ => rfl⟩
  | norm g => exact ⟨Buffer.empty, _, s.faultRec, s.normIdx, rfl, fun _ => Memory.wf_nil, fun _ => rfl⟩
  | compose => exact ⟨Buffer.empty, _, s.faultRec, s.compIdx, rfl, fun _ => Memory.wf_nil, fun _ => rfl⟩

theorem initWork_change (j : Job) (s : State) : JobChange j s (initWork j (begin j s)) := by
  cases j with
  | render g => exact ⟨Buffer.empty, _, s.faultRec, _, rfl, fun _ => Memory.wf_nil, fun _ => rfl⟩
  | norm g => exact ⟨Buffer.empty, _, s.faultRec, _, rfl, fun _ => Memory.wf_nil, fun _ => rfl⟩
  | compose => exact ⟨Buffer.empty, _, s.faultRec, _, rfl, fun _ => Memory.wf_nil, fun _ => rfl⟩

/-- An issued command that answers a next state was refused, or changed only what it may change. -/
theorem exec_job_change {j : Job} {s t : State} (h : exec (jobInstr j) s = .next t) :
    (∃ r, t = refuse r s) ∨ JobChange j s t := by
  rw [exec_job] at h
  unfold runCommand at h
  split at h
  · cases h
    exact .inl ⟨_, rfl⟩
  · right
    unfold runBegun at h
    split at h
    · cases h
      exact (begin_change j s).trans (raise_change (begin_run_busy j s))
    · exact (initWork_change j s).trans (runWhileBusy_change _ _ _ (fun _ => initWork_begin_run j s) h)

/-- A `VFETCH` that answers a next state was a step of a running walk, and changed only what that may change. -/
theorem exec_vfetch_change {a : Word16} {s t : State} (h : exec (.vfetch a) s = .next t) :
    ∃ g, s.run = .busy (.render g) ∧ JobChange (.render g) s t := by
  simp only [exec, execVfetch] at h
  split at h
  · rename_i g hg
    split at h
    · exact ⟨g, hg, vfetch_change hg h⟩
    · cases h
  all_goals cases h

/-- A step of a running command that no `Reset` cuts short: the `VFETCH` of an entry, or the elementary step. -/
theorem step_busy_cases {j : Job} {s : State} (hr : resetPending s = false) (hrun : s.run = .busy j) :
    (∃ g a, j = .render g ∧ readVseq s s.walk.cursor = some a ∧ step s = exec (.vfetch a) s) ∨
      step s = jobMicro j s := by
  have hf : fetch s = fetchBusy j s := by simp [fetch, hr, hrun]
  simp only [step, hf]
  cases j with
  | render g =>
    simp only [fetchBusy, jobMicro, renderMicro]
    by_cases hd : walkDone s = true
    · simp [hd]
    · cases hv : readVseq s s.walk.cursor with
      | none => simp [hd]
      | some a =>
        left
        simp only [hd]
        exact ⟨g, a, rfl, rfl, rfl⟩
  | norm g => exact .inr rfl
  | compose => exact .inr rfl

end Sys2Proof.Machine
end

