-- ==== Sys2Proof/Laws/Level.lean ====
section
/-! SUPPORT. What the two level transforms and the channel clamp answer, said once: the three ranges of the luma code, the
overshoot test and the quotient of the chroma transform, the clamped quotient of a channel. -/

namespace Sys2Proof.Machine

/-! ### Luma (R153 to R155) -/

/-- A code inside the window: the gain 255 / span, truncated. -/
theorem saturateY_inside {low high raw : Byte} (h1 : low.toNat ≤ raw.toNat) (h2 : raw.toNat ≤ high.toNat) :
    saturateY low high raw
      = some (BitVec.ofNat 8 ((high.toNat - raw.toNat) * 255 / (high.toNat - low.toNat))) := by
  have hclamp : lumaClamp ((high.toNat : Int) - raw.toNat) = (high.toNat : Int) - raw.toNat := if_neg (by omega)
  simp only [saturateY, hclamp]
  rw [if_neg (by omega)]
  congr 2
  have e1 : ((high.toNat : Int) - raw.toNat) * (Config.fullScale : Nat)
      = (((high.toNat - raw.toNat) * 255 : Nat) : Int) := by
    push_cast [h2]
    rfl
  have e2 : ((high.toNat : Int) - low.toNat) = ((high.toNat - low.toNat : Nat) : Int) := by omega
  rw [e1, e2, ← Int.natCast_div, Int.toNat_natCast]

/-- The value of a code inside the window is a byte. -/
theorem saturateY_quotient_le {low high raw : Nat} (h1 : low ≤ raw) :
    (high - raw) * 255 / (high - low) ≤ 255 :=
  Nat.div_le_of_le_mul (Nat.mul_le_mul_right _ (by omega))

/-- A code above the window is clamped to 0. -/
theorem saturateY_above {low high raw : Byte} (h : low.toNat ≤ high.toNat) (h2 : high.toNat < raw.toNat) :
    saturateY low high raw = some 0#8 := by
  have hclamp : lumaClamp ((high.toNat : Int) - raw.toNat) = 0 := if_pos (by omega)
  simp only [saturateY, hclamp]
  rw [if_neg (by omega)]
  simp

/-- A code below the window overshoots. -/
theorem saturateY_below {low high raw : Byte} (h : low.toNat ≤ high.toNat) (h2 : raw.toNat < low.toNat) :
    saturateY low high raw = none := by
  have hclamp : lumaClamp ((high.toNat : Int) - raw.toNat) = (high.toNat : Int) - raw.toNat := if_neg (by omega)
  simp only [saturateY, hclamp]
  rw [if_pos (by omega)]

/-! ### Chroma (R160, R161) -/

/-- The transform in plain integers: the overshoot test on the scaled deviation, else the quotient. -/
theorem saturateChroma_eq (headroom range raw : Byte) (h : headroom.toNat ≤ 128) :
    saturateChroma headroom range raw
      = if (128 - headroom.toNat : Int) * range.toNat < |(128 - raw.toNat : Int) * (128 - headroom.toNat)| then none
        else some (BitVec.ofNat 8
          ((128 * range.toNat + (128 - raw.toNat) * (128 - headroom.toNat)) / range.toNat : Int).toNat) := by
  have hamp : (0 : Int) ≤ 128 - headroom.toNat := by omega
  have e : (((Config.neutral : Int) - raw.toNat).natAbs : Int) * ((Config.neutral : Int) - headroom.toNat)
      = |(128 - raw.toNat : Int) * (128 - headroom.toNat)| := by
    rw [abs_mul, abs_of_nonneg hamp, Int.natCast_natAbs]
    rfl
  rw [← e]
  rfl

/-- The quotient of a code that does not overshoot lies within `128 - headroom` of 128. -/
theorem chroma_quotient_bounds {h r raw : Nat} (hr : 1 ≤ r)
    (hle : |(128 - raw : Int) * (128 - h)| ≤ (128 - h : Int) * r) :
    (h : Int) ≤ (128 * r + (128 - raw) * (128 - h)) / r ∧ (128 * r + (128 - raw) * (128 - h)) / r ≤ (256 - h : Int) := by
  have hb := abs_le.mp hle
  have hr' : (0 : Int) < r := by omega
  constructor
  · rw [Int.le_ediv_iff_mul_le hr']
    nlinarith
  · apply Int.le_of_lt_add_one
    rw [Int.ediv_lt_iff_lt_mul hr']
    nlinarith

/-- A code that does not overshoot: the result, as an integer. -/
theorem saturateChroma_some {headroom range raw v : Byte} (h1 : 1 ≤ headroom.toNat) (h : headroom.toNat ≤ 128)
    (hr : 1 ≤ range.toNat) (hv : saturateChroma headroom range raw = some v) :
    |(128 - raw.toNat : Int) * (128 - headroom.toNat)| ≤ (128 - headroom.toNat : Int) * range.toNat ∧
      (v.toNat : Int) = (128 * range.toNat + (128 - raw.toNat) * (128 - headroom.toNat)) / range.toNat := by
  rw [saturateChroma_eq _ _ _ h] at hv
  split at hv
  · cases hv
  · rename_i hle
    have hle' := not_lt.mp hle
    have hb := chroma_quotient_bounds hr hle'
    refine ⟨hle', ?_⟩
    cases hv
    rw [BitVec.toNat_ofNat, Nat.mod_eq_of_lt (by omega)]
    omega

/-! ### The channel clamp (R184) -/

/-- The clamp and truncation of `num / den` is the floor of the exact value clamped to [0, 255]. -/
theorem clampTrunc_floor (num : Int) {den : Int} (hd : 0 < den) :
    ((clampTrunc num den).toNat : Int) = ⌊max 0 (min 255 ((num : ℚ) / den))⌋ := by
  have hd' : (0 : ℚ) < den := by exact_mod_cast hd
  unfold clampTrunc
  by_cases h1 : num ≤ 0
  · have hle : (num : ℚ) / den ≤ 0 := div_nonpos_of_nonpos_of_nonneg (by exact_mod_cast h1) hd'.le
    rw [if_pos h1, max_eq_left (le_trans (min_le_right _ _) hle)]
    simp
  · rw [if_neg h1]
    by_cases h2 : num ≥ Config.fullScale * den
    · have h2' : 255 * den ≤ num := h2
      have hge : (255 : ℚ) ≤ num / den := by
        rw [le_div_iff₀ hd']
        exact_mod_cast h2'
      rw [if_pos h2, min_eq_left hge]
      norm_num
    · have h2' : num < 255 * den := lt_of_not_ge h2
      have hlt : (num : ℚ) / den < 255 := by
        rw [div_lt_iff₀ hd']
        exact_mod_cast h2'
      have hpos : 0 ≤ (num : ℚ) / den := div_nonneg (by exact_mod_cast (by omega : 0 ≤ num)) hd'.le
      have hq : ⌊(num : ℚ) / den⌋ = num / den := by
        lift den to ℕ using hd.le
        exact Rat.floor_intCast_div_natCast num den
      have h3 : 0 ≤ num / den := Int.ediv_nonneg (by omega) hd.le
      have h4 : num / den < 255 := Int.ediv_lt_of_lt_mul hd h2'
      rw [if_neg h2, min_eq_right hlt.le, max_eq_right hpos, hq]
      simp
      omega

/-- The clamp is monotone in the numerator. -/
theorem clampTrunc_mono {a b den : Int} (hd : 0 < den) (h : a ≤ b) :
    (clampTrunc a den).toNat ≤ (clampTrunc b den).toNat := by
  have hd' : (0 : ℚ) < den := by exact_mod_cast hd
  have h1 := clampTrunc_floor a hd
  have h2 := clampTrunc_floor b hd
  have hle : ⌊max 0 (min 255 ((a : ℚ) / den))⌋ ≤ ⌊max 0 (min 255 ((b : ℚ) / den))⌋ := by
    apply Int.floor_le_floor
    have hdiv : (a : ℚ) / den ≤ b / den := div_le_div_of_nonneg_right (by exact_mod_cast h) hd'.le
    exact max_le_max le_rfl (min_le_min le_rfl hdiv)
  omega

/-- The clamp of an exact byte multiple is the byte. -/
theorem clampTrunc_exact (v : Byte) {den : Int} (hd : 0 < den) : clampTrunc (den * v.toNat) den = v := by
  have h := clampTrunc_floor (den * v.toNat) hd
  have hd' : (den : ℚ) ≠ 0 := by exact_mod_cast hd.ne'
  have hv := v.isLt
  have e : ((den * v.toNat : Int) : ℚ) / den = v.toNat := by
    push_cast
    field_simp
  have h255 : (v.toNat : ℚ) ≤ 255 := by exact_mod_cast (by omega : v.toNat ≤ 255)
  rw [e, min_eq_right h255, max_eq_right (Nat.cast_nonneg _), Int.floor_natCast] at h
  exact BitVec.eq_of_toNat_eq (by exact_mod_cast h)

end Sys2Proof.Machine
end

