-- ==== Sys2Proof/Laws/PerInstr.lean ====
section
/-! SUPPORT. Facts about every instruction as syntax, one lemma per constructor. -/

namespace Sys2Proof.Laws.EncodingFields

/-- The fields of an instruction's word: a command stands in the command space with `OP` in 1..3, `Z = 0` and `SEL` no
reserved code (R91, R99), and `VFETCH` stands in the vector space as its own sixteen bits (R100). -/
def Statement (i : Instr) : Prop :=
  match encode i with
  | .cw8 w => fieldOp w ∈ [1#4, 2#4, 3#4] ∧ fieldZ w = 0#2 ∧ fieldSel w ≠ 3#2
  | .v16 w => i = .vfetch w

theorem of_command {i : Instr} (w : BitVec 8) (h : encode i = .cw8 w)
    (hf : fieldOp w ∈ [1#4, 2#4, 3#4] ∧ fieldZ w = 0#2 ∧ fieldSel w ≠ 3#2) : Statement i := by
  rw [Statement, h]
  exact hf

theorem renderY : Statement .renderY := of_command 0x10#8 (by decide) (by decide)
theorem renderRY : Statement .renderRY := of_command 0x11#8 (by decide) (by decide)
theorem renderBY : Statement .renderBY := of_command 0x12#8 (by decide) (by decide)
theorem normY : Statement .normY := of_command 0x20#8 (by decide) (by decide)
theorem normRY : Statement .normRY := of_command 0x21#8 (by decide) (by decide)
theorem normBY : Statement .normBY := of_command 0x22#8 (by decide) (by decide)
theorem compose : Statement .compose := of_command 0x30#8 (by decide) (by decide)
theorem vfetch (a : Word16) : Statement (.vfetch a) := rfl

end Sys2Proof.Laws.EncodingFields
end

