-- ==== Sys2Proof/Tests/Slice0.lean ====
section
/-! SUPPORT. Tests of the model against the spec's worked examples (spec/95_test_vectors.md and the examples in the
rules), ill-formed terms for each check of WellFormed, and a witness for each statement that has hypotheses. -/

namespace Sys2Proof.Tests

open Sys2Proof.Machine

/-! ### Helpers -/

/-- The next state, if the answer is one. -/
def nextOf : Result → Option State
  | .next s => some s
  | .fault _ => none
  | .refused _ => none

theorem next_of_isSome {r : Result} (s : State) (h : (nextOf r).isSome = true) : r = .next ((nextOf r).getD s) := by
  cases r with
  | next t => rfl
  | fault f => cases h
  | refused f => cases h

/-- The geometry of program P2 (L = 1, N = 2), the level registers at their reset values, both ranges 96. -/
def smallCfg : ConfigRegs where
  backLen := 0#16
  rasterLen := 1#16
  frontLen := 0#16
  numLines := 2#16
  yLow := 41#8
  yHigh := 181#8
  cHeadroom := 32#8
  cRangeRY := 96#8
  cRangeBY := 96#8

/-- After reset, with the registers of P2. -/
def small : State := { State.reset with cfg := smallCfg }

/-- A vector store that holds a list. -/
def vseqOf (es : List Word16) : VseqStore :=
  { valid := true, len := BitVec.ofNat 32 es.length, mem := Memory.ofList es }

/-- A bank that holds three-byte channels. -/
def bankOf (chans : List (List Byte)) : RomBank := { valid := true, len := 3#32, chans := chans.map Memory.ofList }

/-- P2 with everything loaded. -/
def loaded : State :=
  { small with
    vseq := vseqOf [0#16, 2#16, 1#16, 2#16]
    rom :=
      { y := bankOf [[41#8, 153#8, 0#8], [69#8, 181#8, 0#8], [97#8, 200#8, 0#8], [125#8, 111#8, 0#8]]
        ry := bankOf [[128#8, 224#8, 0#8], [32#8, 100#8, 0#8]]
        bY := bankOf [[128#8, 32#8, 255#8], [224#8, 150#8, 255#8]] } }

/-- A raw luma plane in every group's buffer. -/
def withRaw (w h : Nat) (data : List Byte) : State :=
  { small with
    raw := { y := Buffer.loaded w h data, ry := Buffer.loaded w h data, bY := Buffer.loaded w h data } }

/-- Three aligned planes. -/
def withAligned (y cb cr : Buffer Byte) : State := { small with aln := { y := y, cb := cb, cr := cr } }

/-- The first entry of a running `RENDER.Y` of P2. -/
def walking : State := initWork (.render .y) (begin (.render .y) loaded)

/-- The undrawn last line of field 1 of the same walk. -/
def walkingLast : State := { walking with walk := { k := 1, f := 0, p := 0, c := 0, vcur0 := 1, vcur1 := 3 } }

/-- A state in FAULT with a refused command. -/
def faulted : State :=
  { small with
    run := .fault
    refused := true
    refuseReason := 1#8
    faultRec := { cause := 0x0212#16, index := 2#32, value := 40#32 } }

/-- The fault record after an answer. -/
def faultOf (r : Result) : Option (BitVec 16 × Nat × Nat) :=
  (nextOf r).bind fun t =>
    if t.run = .fault then some (t.faultRec.cause, t.faultRec.index.toNat, t.faultRec.value.toNat) else none

/-! ### Ill-formed terms, one for each check of WellFormed -/

theorem test_wf_write_geometry : (Transaction.writeReg 3 65536).wf = false := by decide
theorem test_wf_write_level : (Transaction.writeReg 8 256).wf = false := by decide
theorem test_wf_write_command : (Transaction.writeReg 16 256).wf = false := by decide
theorem test_wf_plane_width : (Transaction.loadRaw .y 65536 0 []).wf = false := by decide
theorem test_wf_plane_height : (Transaction.loadAligned .cb 0 65536 []).wf = false := by decide
theorem test_wf_plane_data : (Transaction.loadAligned .y 2 2 [1#8, 2#8, 3#8]).wf = false := by decide
theorem test_wf_rom_count : (Transaction.loadRom .y [[1#8], [2#8], [3#8]]).wf = false := by decide
theorem test_wf_rom_unequal : (Transaction.loadRom .ry [[1#8], [2#8, 3#8]]).wf = false := by decide
theorem test_wf_rom_empty : (Transaction.loadRom .ry [[], []]).wf = false := by decide
theorem test_wf_rom_long (c : List Byte) (h : c.length = 2 ^ 32) : (Transaction.loadRom .ry [c, c]).wf = false := by
  simp [Transaction.wf, romShapeOk, h]
theorem test_wf_vseq_long (es : List Word16) (h : es.length = 2 ^ 32) : (Transaction.loadVseq es).wf = false := by
  simp [Transaction.wf, h]

/-! ### Decoding: the words of R92 to R98 written out from their fields, and reserved words (section 2.1) -/

theorem test_decode_render_by : decode (.cw8 (0b0001#4 ++ 0b00#2 ++ 0b10#2)) = .ok .renderBY := by decide
theorem test_decode_norm_ry : decode (.cw8 (0b0010#4 ++ 0b00#2 ++ 0b01#2)) = .ok .normRY := by decide
theorem test_decode_compose : decode (.cw8 (0b0011#4 ++ 0b00#2 ++ 0b00#2)) = .ok .compose := by decide
theorem test_decode_vfetch : decode (.v16 0xFFFF#16) = .ok (.vfetch 0xFFFF#16) := by decide
theorem test_decode_sel : decode (.cw8 0x13#8) = .error .reservedSel := by decide
theorem test_decode_compose_sel : decode (.cw8 0x31#8) = .error .reservedSel := by decide
theorem test_decode_z : decode (.cw8 0x14#8) = .error .reservedZ := by decide
theorem test_decode_op : decode (.cw8 0x40#8) = .error .reservedOp := by decide
/-- Words that section 2.1 labels by `OP` although their `Z` is not zero either. -/
theorem test_decode_op_first :
    decode (.cw8 0x0F#8) = .error .reservedOp ∧ decode (.cw8 0xFF#8) = .error .reservedOp := by decide
theorem test_table_words :
    [0x10, 0x11, 0x12, 0x20, 0x21, 0x22, 0x30].map (decodeTableWord 8)
      = [some .renderY, some .renderRY, some .renderBY, some .normY, some .normRY, some .normBY, some .compose] := by
  decide
theorem test_table_vfetch : decodeTableWord 16 0x1A2B = some (.vfetch 0x1A2B#16) := by decide

/-! ### The instructions (program P2, sections 2.3 to 2.7) -/

theorem test_render_y_p2 :
    (nextOf (exec .renderY loaded)).map (fun t => t.raw.y.mem.contents)
      = some [41#8, 69#8, 97#8, 125#8, 153#8, 181#8, 200#8, 111#8] := by decide
/-- An entry of the undrawn last line out of range faults (section 2.3, second variant). -/
theorem test_render_y_last_line :
    faultOf (exec .renderY { loaded with vseq := vseqOf [0#16, 3#16, 1#16, 2#16] }) = some (0x0121#16, 1, 3) := by
  decide
theorem test_render_ry_p2 :
    (nextOf (exec .renderRY loaded)).map (fun t => (t.raw.ry.mem.contents, t.raw.ry.dim))
      = some ([128#8, 32#8, 224#8, 100#8], 0x00020002#32) := by decide
/-- Field 2 line 0 is walked before field 1 line 1 (program P6, section 2.2). -/
theorem test_render_ry_walk_order :
    faultOf (exec .renderRY { loaded with vseq := vseqOf [0#16, 9#16, 10#16, 2#16] }) = some (0x1121#16, 2, 10) := by
  decide
theorem test_render_by_p2 :
    (nextOf (exec .renderBY loaded)).map (fun t => t.raw.bY.mem.contents)
      = some [128#8, 224#8, 32#8, 150#8] := by decide
/-- One entry short (program P4). -/
theorem test_render_by_short :
    faultOf (exec .renderBY { loaded with vseq := vseqOf [0#16, 2#16, 1#16] }) = some (0x2111#16, 3, 4) := by decide

/-- `NUM_LINES = 1` gives an empty valid plane (section 2.3). -/
theorem test_render_one_line :
    (nextOf (exec .renderY { loaded with cfg := { smallCfg with numLines := 1#16 } })).map
      (fun t => (t.raw.y.valid, t.raw.y.dim, t.raw.y.mem)) = some (true, 0x00040000#32, []) := by decide
/-- `L = 0` needs no entry (section 2.3). -/
theorem test_render_no_width :
    (nextOf (exec .renderY { loaded with cfg := { smallCfg with rasterLen := 0#16 }, vseq := vseqOf [] })).map
      (fun t => (t.raw.y.valid, t.raw.y.dim)) = some (true, 0x00000002#32) := by decide

theorem test_norm_y_p2 :
    (nextOf (exec .normY (withRaw 4 2 [41#8, 69#8, 97#8, 125#8, 153#8, 181#8, 200#8, 111#8]))).map
      (fun t => t.nrm.y.mem.contents) = some [255#8, 204#8, 153#8, 102#8, 51#8, 0#8, 0#8, 127#8] := by decide
/-- Program P3: the first overshoot, at element 2. -/
theorem test_norm_y_p3 :
    faultOf (exec .normY (withRaw 2 2 [100#8, 41#8, 40#8, 39#8])) = some (0x0212#16, 2, 40) := by decide
/-- The worked example of R165. -/
theorem test_norm_ry_r165 :
    (nextOf (exec .normRY (withRaw 3 1 [32#8, 128#8, 224#8]))).map (fun t => t.nrm.ry.mem.contents)
      = some [224#8, 128#8, 32#8] := by decide
theorem test_norm_ry_first_overshoot :
    faultOf (exec .normRY (withRaw 3 1 [128#8, 225#8, 0#8])) = some (0x1222#16, 1, 225) := by decide
/-- The worked example of R166, with its own range 64. -/
theorem test_norm_by_r166 :
    (nextOf (exec .normBY { withRaw 3 1 [64#8, 129#8, 192#8] with cfg := { smallCfg with cRangeBY := 64#8 } })).map
      (fun t => t.nrm.bY.mem.contents) = some [224#8, 126#8, 32#8] := by decide
theorem test_norm_by_r166_overshoot :
    faultOf (exec .normBY { withRaw 1 1 [193#8] with cfg := { smallCfg with cRangeBY := 64#8 } })
      = some (0x2222#16, 0, 193) := by decide

/-- Four pixels of program P2. -/
theorem test_compose_p2 :
    (nextOf (exec .compose (withAligned
        (Buffer.loaded 2 2 [153#8, 102#8, 51#8, 127#8]) (Buffer.loaded 2 2 [32#8, 32#8, 224#8, 106#8])
        (Buffer.loaded 2 2 [224#8, 224#8, 32#8, 156#8])))).map (fun t => t.rgb.mem.contents)
      = some
        [{ r := 255#8, g := 117#8, b := 0#8 }, { r := 236#8, g := 66#8, b := 0#8 },
          { r := 0#8, g := 86#8, b := 221#8 }, { r := 166#8, g := 114#8, b := 88#8 }] := by decide
/-- The third geometry vector of section 2.6, its dimensions at one pixel's scale: the `CB` tests come first. -/
theorem test_compose_geometry :
    faultOf (exec .compose (withAligned
        (Buffer.loaded 4 2 (List.replicate 8 0#8)) (Buffer.loaded 4 3 (List.replicate 12 0#8))
        (Buffer.loaded 2 2 (List.replicate 4 0#8)))) = some (0x2323#16, 2, 3) := by decide
/-- Where the exact value of `G` is an integer (R186), and the truncation that is no rounding (R185). -/
theorem test_pixel_exact_and_truncated :
    composePixel 100#8 228#8 28#8 = { r := 0#8, g := 137#8, b := 255#8 } ∧
      composePixel 1#8 128#8 127#8 = { r := 0#8, g := 1#8, b := 1#8 } := by decide

/-- The first step of P2's walk: four bytes to row 0, and the cursor moves to field 2 (R125, R127). -/
theorem test_vfetch_drawn :
    (nextOf (exec (.vfetch 0#16) walking)).map (fun t => (t.raw.y.mem.contents, t.walk.cursor))
      = some ([41#8, 69#8, 97#8, 125#8], 2) := by decide
/-- A step of the last line stores nothing (R130). -/
theorem test_vfetch_undrawn :
    (nextOf (exec (.vfetch 2#16) walkingLast)).map (fun t => (t.raw.y.mem, t.walk.vcur0, t.walk.cursor))
      = some ([], 2, 3) := by decide

/-- Section 2.7, first and third line: the reason kept is the first. -/
theorem test_refusal_first_reason :
    ((nextOf (issue 0x30#8 small)).bind (fun t => nextOf (issue 0x13#8 t))).map
      (fun t => (statusWord t, t.refuseReason)) = some (0x00000004#32, 4#8) := by decide
/-- Section 2.7: check 3 comes before check 4. -/
theorem test_refusal_order :
    (nextOf (issue 0x10#8 { small with cfg := { smallCfg with numLines := 0#16 } })).map (fun t => t.refuseReason)
      = some 3#8 := by decide
/-- Program P3: after the fault a reserved word is refused with `NOT_IDLE`. -/
theorem test_refusal_in_fault :
    (nextOf (issue 0x13#8 { faulted with refused := false, refuseReason := 0#8 })).map (fun t => t.refuseReason)
      = some 1#8 := by decide

/-- Every instruction is fetched and run as the first after reset. -/
theorem test_fetch_word :
    (nextOf (step (State.reset.withFetchWord 8 0x30))).map (fun t => t.refuseReason) = some 4#8 ∧
      (nextOf (step (State.reset.withFetchWord 16 0x0005))).map (fun t => t.faultRec.value) = some 5#32 := by decide

/-- Every memory of the reset state is canonical. -/
theorem test_reset_memories : State.reset.memoriesWf := by decide

/-! ### The text of the vector dump (section 2.8) -/

/-- The dump of section 2.8, with the markers as the source prints them. -/
def dumpLines : List (List Char) :=
  ["<HEADER_BEGIN>".toList, "capture tool 1.0".toList, "0000 this is header text, not data".toList,
    "<HEADER_END>".toList, "0010 trailing tokens are ignored".toList, "00ff".toList, "FFFF".toList,
    "   1a2B".toList, [], "<HEADER_BEGIN>".toList, "footer".toList, "<HEADER_END>".toList, "0".toList]

theorem test_dump_of_section_2_8 :
    readDump "<HEADER_BEGIN>".toList "<HEADER_END>".toList dumpLines
      = .ok (.loadVseq [0x0010#16, 0x00FF#16, 0xFFFF#16, 0x1A2B#16, 0x0000#16]) := by decide
theorem test_dump_unparsable :
    ["10000", "zz", "0x10"].map (fun t => parseToken t.toList) = [none, none, none] := by decide
theorem test_vector_text : vectorText 0x1A2B#16 = "1A2B".toList := by decide

/-! ### `REGEN` and `RECOMPOSE` (R109, R110) -/

/-- The command words among a list of transactions. -/
def commandWords (ts : List Transaction) : List Nat :=
  ts.filterMap fun t =>
    match t with
    | .writeReg n v => if n = cmdNumber then some v else none
    | _ => none

/-- Three planes of one element, each with a byte of its own. -/
def onePixels (y ry bY : Byte) : PerGroup PlaneData :=
  { y := { w := 1, h := 1, data := [y] }, ry := { w := 1, h := 1, data := [ry] }, bY := { w := 1, h := 1, data := [bY] } }

theorem test_regen_words : commandWords regen = [0x10, 0x11, 0x12] := by decide
/-- The whole expansion, with an alignment that leaves every plane as it is: `CB` is loaded from `NRM[BY]`. -/
theorem test_recompose_expansion :
    recompose (some (onePixels 41#8 128#8 129#8)) (onePixels 255#8 1#8 2#8) (fun _ p => p) =
      [.loadRaw .y 1 1 [41#8], .loadRaw .ry 1 1 [128#8], .loadRaw .bY 1 1 [129#8], .writeReg 16 0x20, .writeReg 16 0x21,
        .writeReg 16 0x22, .readPlane (.nrm .y), .readPlane (.nrm .ry), .readPlane (.nrm .bY),
        .loadAligned .y 1 1 [255#8], .loadAligned .cb 1 1 [2#8], .loadAligned .cr 1 1 [1#8], .writeReg 16 0x30,
        .readPlane .rgb] := by decide
theorem test_recompose_after_regen :
    commandWords (recompose none (onePixels 0#8 0#8 0#8) fun _ p => p) = [0x20, 0x21, 0x22, 0x30] := by decide

/-! ### Witnesses: for each statement with hypotheses, values that meet them all, and each clause at a boundary -/

/-- The answer of a command that has one. -/
def after (i : Instr) (s : State) : State := (nextOf (exec i s)).getD s

theorem test_loaded_inv : loaded.Inv := ⟨by decide, by decide, by decide, by decide, by decide, by decide, by decide⟩

theorem test_small_inv : small.Inv := ⟨by decide, by decide, by decide, by decide, by decide, by decide, by decide⟩

theorem test_withRaw_inv (w h : Nat) (data : List Byte) (hok : (Buffer.loaded w h data).Inv) : (withRaw w h data).Inv :=
  ⟨test_small_inv.1, test_small_inv.2.1, test_small_inv.2.2.1, ⟨hok, hok, hok⟩, test_small_inv.2.2.2.2⟩

theorem test_witness_DecodeOfEncodeIsTheInstruction : Instr.wf (.vfetch 0xFFFF#16) = true ∧ Instr.wf .compose = true := by
  decide

theorem test_witness_ResetLeavesTheStatedValues : 9 ≤ 9 ∧ readReg State.reset 9 = 0#32 ∧ readReg State.reset 41 = 0#32 := by
  decide

theorem test_witness_ResetWorksFromEveryState :
    { faulted with inbox := [.reset] }.inbox = .reset :: [] ∧ { walking with inbox := [.reset] }.inbox = .reset :: [] := by
  decide

theorem test_witness_WithoutTheHostNothingHappens :
    (small.inbox = [] ∧ small.run.isBusy = false) ∧ (faulted.inbox = [] ∧ faulted.run.isBusy = false) := by decide

theorem test_witness_StepExecutesTheIssuedCommand :
    { small with inbox := [commandIssue 0x30#8] }.inbox = commandIssue 0x30#8 :: [] ∧
      { small with inbox := [commandIssue 0x30#8] }.run.isBusy = false ∧
      decode (.cw8 0x30#8) = .ok .compose ∧ Instr.compose.wf = true := by decide

theorem test_witness_StepExecutesTheFetchedVectorEntry :
    resetPending walking = false ∧ walking.run = .busy (.render .y) ∧ walking.walk.k < lineCount walking.cfg ∧
      readVseq walking walking.walk.cursor = some 0#16 ∧ decode (.v16 0#16) = .ok (.vfetch 0#16) ∧
      (Instr.vfetch 0#16).wf = true := by decide

theorem test_witness_CommandsAreAcceptedByTheTableOfChecks :
    (faulted.run ≠ .idle) ∧
    (small.run = .idle ∧ 0x33#8 ∉ [0x10#8, 0x11#8, 0x12#8, 0x20#8, 0x21#8, 0x22#8, 0x30#8]) ∧
    (decode (.cw8 0x10#8) = .ok (jobInstr (.render .y))) ∧
    (¬ (1 ≤ (0#16).toNat) ∧ ¬ ((4096#16).toNat ≤ 4095)) ∧
    (small.cfg.backLen.toNat ≤ 4095 ∧ small.cfg.rasterLen.toNat ≤ 4095 ∧ small.cfg.frontLen.toNat ≤ 4095 ∧
      1 ≤ small.cfg.numLines.toNat ∧ small.cfg.numLines.toNat ≤ 4095 ∧
      ¬ ((small.rom.get .y).valid = true ∧ small.vseq.valid = true)) ∧
    (loaded.run = .idle ∧ (loaded.rom.get .y).valid = true ∧ loaded.vseq.valid = true) ∧
    (decode (.cw8 0x20#8) = .ok (jobInstr (.norm .y)) ∧ ¬ (181#8).toNat < (181#8).toNat ∧
      (withRaw 1 1 [41#8]).cfg.yLow.toNat < (withRaw 1 1 [41#8]).cfg.yHigh.toNat ∧
      ((withRaw 1 1 [41#8]).raw.get .y).valid = true) ∧
    (decode (.cw8 0x22#8) = .ok (jobInstr (.norm .bY)) ∧ ¬ 1 ≤ (0#8).toNat ∧ ¬ (129#8).toNat ≤ 128 ∧
      (128#8).toNat ≤ 128 ∧ 1 ≤ (1#8).toNat) := by decide

theorem test_witness_RefusalChangesOnlyTheRefusalRecord : small.refuseReason = 0#8 ∧ faulted.refuseReason ≠ 0#8 := by
  decide

theorem test_witness_RefusalIsStickyUntilReset :
    resetPending { faulted with inbox := [commandIssue 0x10#8] } = false ∧ faulted.refused = true ∧
      faulted.refuseReason ≠ 0#8 ∧ (nextOf (step { faulted with inbox := [commandIssue 0x10#8] })).isSome = true := by
  decide

theorem test_witness_RenderDrawsTheWholePlane :
    loaded.Inv ∧ loaded.run = .idle ∧ geometryLegal loaded.cfg = true ∧ (loaded.rom.get .y).valid = true ∧
      loaded.vseq.valid = true ∧ vseqRequired loaded.cfg ≤ loaded.vseq.len.toNat ∧
      (∀ i, i < vseqRequired loaded.cfg → entryInRange loaded .y i = true) ∧
      (1 < 2 * (lineCount loaded.cfg - 1) ∧ 3 < lineWidth loaded.cfg * cpg .y) :=
  ⟨test_loaded_inv, by decide⟩

theorem test_witness_RowsAlternateBetweenTheFields :
    loaded.Inv ∧ loaded.run = .idle ∧ exec (jobInstr (.render .bY)) loaded = .next (after .renderBY loaded) ∧
      (after .renderBY loaded).run = .idle ∧ loaded.refused = false ∧ (after .renderBY loaded).refused = false ∧
      0 + 1 < lineCount loaded.cfg ∧ 0 < lineWidth loaded.cfg ∧ 1 < cpg .bY :=
  ⟨test_loaded_inv, by decide, next_of_isSome _ (by decide), by decide, by decide, by decide, by decide, by decide, by decide⟩

/-- P2 with one entry too few. -/
def short : State := { loaded with vseq := vseqOf [0#16, 2#16, 1#16] }

theorem test_witness_RenderFaultsOnAShortSequence :
    short.run = .idle ∧ geometryLegal short.cfg = true ∧ (short.rom.get .ry).valid = true ∧ short.vseq.valid = true ∧
      short.vseq.len.toNat < 2 * (lineWidth short.cfg * lineCount short.cfg) := by decide

/-- P2 with two entries out of range: the later index comes first in the walk. -/
def outOfRange : State := { loaded with vseq := vseqOf [0#16, 9#16, 3#16, 2#16] }

theorem test_witness_RenderReportsTheFirstEntryOutOfRange :
    outOfRange.Inv ∧ outOfRange.run = .idle ∧ geometryLegal outOfRange.cfg = true ∧
      (outOfRange.rom.get .ry).valid = true ∧ outOfRange.vseq.valid = true ∧
      vseqRequired outOfRange.cfg ≤ outOfRange.vseq.len.toNat ∧ 1 < vseqRequired outOfRange.cfg ∧
      (∀ t, t < 1 → entryInRange outOfRange .ry (walkIndex outOfRange.cfg t) = true) ∧
      readVseq outOfRange (walkIndex outOfRange.cfg 1) = some 3#16 ∧
      (outOfRange.rom.get .ry).len.toNat ≤ (3#16).toNat :=
  ⟨⟨by decide, by decide, by decide, by decide, by decide, by decide, by decide⟩, by decide⟩

theorem test_witness_WalkVisitsLinesFieldsAndPositionsInOrder :
    0 < lineWidth smallCfg ∧ 1 < lineCount smallCfg ∧ 1 < 2 ∧ 0 < lineWidth smallCfg := by decide

theorem test_witness_SurplusVectorEntriesHaveNoEffect :
    loaded.Inv ∧ (vseqOf [0#16, 2#16, 1#16, 2#16, 0xFFFF#16]).Inv ∧ loaded.run = .idle ∧ loaded.vseq.valid = true ∧
      (vseqOf [0#16, 2#16, 1#16, 2#16, 0xFFFF#16]).valid = true ∧ vseqRequired loaded.cfg ≤ loaded.vseq.len.toNat ∧
      vseqRequired loaded.cfg ≤ (vseqOf [0#16, 2#16, 1#16, 2#16, 0xFFFF#16]).len.toNat ∧
      (∀ i, i < vseqRequired loaded.cfg →
        Memory.read (vseqOf [0#16, 2#16, 1#16, 2#16, 0xFFFF#16]).mem i = Memory.read loaded.vseq.mem i) :=
  ⟨test_loaded_inv, by decide⟩

theorem test_witness_VfetchDrawsOneSamplePerChannel :
    (walking.run = .busy (.render .y) ∧ walking.walk.k + 1 < lineCount walking.cfg ∧
      walking.walk.p < lineWidth walking.cfg ∧ (walking.rom.get .y).valid = true ∧ (walking.rom.get .y).Inv .y ∧
      (2#16).toNat < (walking.rom.get .y).len.toNat ∧ 3 < cpg .y) ∧
    (walkingLast.run = .busy (.render .y) ∧ walkingLast.walk.k < lineCount walkingLast.cfg ∧
      ¬ walkingLast.walk.k + 1 < lineCount walkingLast.cfg ∧ walkingLast.walk.p < lineWidth walkingLast.cfg ∧
      (walkingLast.rom.get .y).valid = true ∧ (walkingLast.rom.get .y).Inv .y ∧
      (2#16).toNat < (walkingLast.rom.get .y).len.toNat) := by decide

theorem test_witness_VfetchFaultsBeyondTheRomLength :
    walkingLast.run = .busy (.render .y) ∧ walkingLast.walk.k < lineCount walkingLast.cfg ∧
      walkingLast.walk.p < lineWidth walkingLast.cfg ∧ (walkingLast.rom.get .y).len.toNat ≤ (3#16).toNat := by decide

theorem test_witness_VfetchOutsideAWalkHasNoMove :
    (∀ g, small.run = .busy (.render g) → ¬ (small.walk.k < lineCount small.cfg ∧ small.walk.p < lineWidth small.cfg)) ∧
      (∀ g, { walking with walk := { walking.walk with k := 2 } }.run = .busy (.render g) →
        ¬ (2 < lineCount walking.cfg ∧ walking.walk.p < lineWidth walking.cfg)) :=
  ⟨fun g h => (by cases h), fun g _ => by decide⟩

theorem test_witness_LumaTransformIsTheStatedFormula :
    (41#8).toNat < (181#8).toNat ∧ (40#8).toNat < (41#8).toNat ∧ (181#8).toNat < (182#8).toNat ∧
      (41#8).toNat ≤ (41#8).toNat ∧ (181#8).toNat ≤ (181#8).toNat := by decide

theorem test_witness_LumaTransformIsNonIncreasing :
    (100#8).toNat < (101#8).toNat ∧ (100#8).toNat < (101#8).toNat ∧ saturateY 100#8 101#8 100#8 = some 255#8 ∧
      saturateY 100#8 101#8 101#8 = some 0#8 := by decide

theorem test_witness_ChromaTransformIsTheStatedFormula :
    (1 ≤ (32#8).toNat ∧ (32#8).toNat ≤ 128 ∧ 1 ≤ (96#8).toNat) ∧
      |((128 : ℚ) - 224) * (128 - 32) / 96| ≤ (128 : ℚ) - 32 ∧ (128 : ℚ) - 32 < |((128 : ℚ) - 225) * (128 - 32) / 96| := by
  refine ⟨by decide, ?_, ?_⟩ <;> norm_num

theorem test_witness_ChromaTransformKeepsNeutralRangeAndOrder :
    (1 ≤ (1#8).toNat ∧ (1#8).toNat ≤ 128 ∧ 1 ≤ (128#8).toNat) ∧ saturateChroma 1#8 128#8 0#8 = some 255#8 ∧
      (0#8).toNat < (1#8).toNat ∧ saturateChroma 1#8 128#8 1#8 = some 254#8 := by decide

theorem test_witness_NormTransformsEveryPixel :
    ((withRaw 3 1 [41#8, 181#8, 255#8]).Inv ∧ configLegal (.norm .y) smallCfg = true ∧
      ((withRaw 3 1 [41#8, 181#8, 255#8]).raw.get .y).valid = true ∧
      ∀ n, n < dimSize ((withRaw 3 1 [41#8, 181#8, 255#8]).raw.get .y).dim →
        pixelInRange (withRaw 3 1 [41#8, 181#8, 255#8]) .y n = true) ∧
    ((withRaw 2 1 [32#8, 224#8]).Inv ∧ (withRaw 2 1 [32#8, 224#8]).run = .idle ∧
      configLegal (.norm .bY) smallCfg = true ∧ ((withRaw 2 1 [32#8, 224#8]).raw.get .bY).valid = true ∧
      ∀ n, n < dimSize ((withRaw 2 1 [32#8, 224#8]).raw.get .bY).dim →
        pixelInRange (withRaw 2 1 [32#8, 224#8]) .bY n = true) :=
  ⟨⟨test_withRaw_inv _ _ _ (by decide), by decide⟩, ⟨test_withRaw_inv _ _ _ (by decide), by decide⟩⟩

theorem test_witness_NormReportsTheFirstOvershoot :
    (withRaw 2 2 [100#8, 41#8, 40#8, 39#8]).Inv ∧ (withRaw 2 2 [100#8, 41#8, 40#8, 39#8]).run = .idle ∧
      configLegal (.norm .y) smallCfg = true ∧ ((withRaw 2 2 [100#8, 41#8, 40#8, 39#8]).raw.get .y).valid = true ∧
      2 < dimSize ((withRaw 2 2 [100#8, 41#8, 40#8, 39#8]).raw.get .y).dim ∧
      (∀ n, n < 2 → pixelInRange (withRaw 2 2 [100#8, 41#8, 40#8, 39#8]) .y n = true) ∧
      ((withRaw 2 2 [100#8, 41#8, 40#8, 39#8]).raw.get .y).read 2 = some 40#8 ∧
      levelTransform .y smallCfg 40#8 = none :=
  ⟨test_withRaw_inv _ _ _ (by decide), by decide⟩

theorem test_witness_PixelGreyAxisAndMonotoneInLuma : (0#8).toNat ≤ (255#8).toNat := by decide

theorem test_witness_BrightestRawLumaComposesToWhite :
    (41#8).toNat < (181#8).toNat ∧ 1 ≤ (128#8).toNat ∧ (128#8).toNat ≤ 128 ∧ 1 ≤ (1#8).toNat ∧ 1 ≤ (255#8).toNat := by
  decide

/-- Aligned planes of the dimensions given, all zeros. -/
def alignedDims (wy hy wb hb wr hr : Nat) : State :=
  withAligned (Buffer.loaded wy hy (List.replicate (wy * hy) 0#8)) (Buffer.loaded wb hb (List.replicate (wb * hb) 0#8))
    (Buffer.loaded wr hr (List.replicate (wr * hr) 0#8))

theorem test_witness_ComposeCombinesTheAlignedPlanes :
    (alignedDims 2 1 2 1 2 1).Inv ∧ (alignedDims 2 1 2 1 2 1).run = .idle ∧
      (alignedDims 2 1 2 1 2 1).aln.y.valid = true ∧ (alignedDims 2 1 2 1 2 1).aln.cb.valid = true ∧
      (alignedDims 2 1 2 1 2 1).aln.cr.valid = true ∧
      (alignedDims 2 1 2 1 2 1).aln.cb.dim = (alignedDims 2 1 2 1 2 1).aln.y.dim ∧
      (alignedDims 2 1 2 1 2 1).aln.cr.dim = (alignedDims 2 1 2 1 2 1).aln.y.dim :=
  ⟨⟨by decide, by decide, by decide, by decide, by decide, by decide, by decide⟩, by decide⟩

/-- The hypotheses of the geometry statement. -/
def comparable (s : State) : Bool :=
  decide (s.run = .idle) && s.aln.y.valid && s.aln.cb.valid && s.aln.cr.valid
    && !(decide (s.aln.cb.dim = s.aln.y.dim) && decide (s.aln.cr.dim = s.aln.y.dim))

/-- Its four clauses: `CB` width, `CB` height, `CR` width, `CR` height (section 2.6, at a small scale). -/
theorem test_witness_ComposeFaultsOnUnequalDimensions :
    comparable (alignedDims 2 1 1 1 2 1) = true ∧ comparable (alignedDims 2 1 2 2 1 1) = true ∧
      comparable (alignedDims 2 1 2 1 1 1) = true ∧ comparable (alignedDims 2 1 2 1 2 2) = true ∧
      faultOf (exec .compose (alignedDims 2 1 1 1 2 1)) = some (0x2313#16, 2, 1) ∧
      faultOf (exec .compose (alignedDims 2 1 2 2 1 1)) = some (0x2323#16, 1, 2) ∧
      faultOf (exec .compose (alignedDims 2 1 2 1 1 1)) = some (0x1313#16, 2, 1) ∧
      faultOf (exec .compose (alignedDims 2 1 2 1 2 2)) = some (0x1323#16, 1, 2) := by decide

theorem test_witness_RaiseWritesTheRecordAndStops :
    walking.run = .busy (.render .y) ∧ (begin (.norm .ry) small).run = .busy (.norm .ry) ∧
      (begin .compose small).run = .busy .compose := by decide

theorem test_witness_FaultIsLeftOnlyByReset :
    faulted.run = .fault ∧ resetPending { faulted with inbox := [commandIssue 0x10#8] } = false ∧
      (nextOf (step { faulted with inbox := [commandIssue 0x10#8] })).isSome = true := by decide

theorem test_witness_LoadVseqStoresTheEntries :
    small.run = .idle ∧ (Transaction.loadVseq []).wf = true ∧ (Transaction.loadVseq [0xFFFF#16]).wf = true := by decide

theorem test_witness_LoadRomStoresTheChannels :
    small.run = .idle ∧ (Transaction.loadRom .ry [[1#8], [2#8]]).wf = true ∧
      ([[1#8], [2#8]] : List (List Byte))[1]? = some [2#8] := by decide

theorem test_witness_LoadPlaneStoresThePlane :
    small.run = .idle ∧ planeShapeOk 2 1 [1#8, 2#8] = true ∧ planeShapeOk 0 65535 [] = true := by decide

/-- Every buffer that a host reads, valid in IDLE and in FAULT: one element each, and one plane without elements. -/
def readable (run : RunState) : State :=
  { withRaw 1 1 [40#8] with
    run := run
    nrm := { y := Buffer.loaded 1 1 [255#8], ry := Buffer.loaded 1 1 [128#8], bY := Buffer.loaded 0 7 [] }
    rgb := Buffer.loaded 1 1 [{ r := 1#8, g := 2#8, b := 3#8 }] }

/-- `FAULT` as in program P3: the raw plane is read after the fault. -/
theorem test_witness_ReadPlaneReturnsWhatWasLoaded :
    ((readable .idle).buffersInv ∧ (readable .fault).buffersInv ∧ (readable .idle).run = .idle ∧
      (readable .fault).run = .fault ∧ ((readable .fault).raw.get .y).valid = true ∧
      ((readable .fault).nrm.get .bY).valid = true ∧ (readable .idle).rgb.valid = true) ∧
    (small.run = .idle ∧ planeShapeOk 1 2 [1#8, 2#8] = true) := by
  refine ⟨⟨?_, ?_, by decide⟩, by decide⟩ <;>
    exact ⟨by decide, by decide, by decide, by decide, by decide, by decide⟩

theorem test_witness_ReadPlaneOfAnInvalidBufferReturnsNothing :
    (small.raw.get .y).valid = false ∧ (small.nrm.get .bY).valid = false ∧ small.rgb.valid = false := by decide

theorem test_witness_HostWritesHaveNoEffectOutsideIdle :
    faulted.run ≠ .idle ∧ walking.run ≠ .idle ∧ 15 ≠ cmdNumber ∧ 17 ≠ cmdNumber := by decide

theorem test_witness_RegisterWritesStoreTheValue :
    small.run = .idle ∧ (0 ≠ cmdNumber ∧ writeFits 0 65535 = true ∧ 0 < 9) ∧
      (8 ≠ cmdNumber ∧ writeFits 8 255 = true ∧ 8 < 9) ∧ (9 ≠ cmdNumber ∧ writeFits 9 70000 = true ∧ 9 ≤ 9) ∧
      (15 ≠ cmdNumber ∧ writeFits 15 1 = true) ∧ (17 ≠ cmdNumber ∧ writeFits 17 1 = true) ∧ cmdNumber ≠ 17 := by decide

theorem test_witness_StatusBitsAreTheFlags : (2 < 32 ∧ 2 ≤ 2) ∧ (31 < 32 ∧ 2 ≤ 31) := by decide

/-- Numbers at the ends of each range, buffers with valid bit 0 and 1, and the record of program P3. -/
theorem test_witness_RegisterReadsFollowTheMap :
    ((9 ≤ 9 ∧ 16 ≤ 16) ∧ (28 ≤ 28 ∧ 31 ≤ 31) ∧ 42 ≤ 42) ∧
      (small.vseq.valid = false ∧ (small.rom.get .bY).valid = false ∧ (small.raw.get .y).valid = false ∧
        small.aln.cr.valid = false ∧ small.rgb.valid = false) ∧
      (32 = 32 + (groupCode .y).toNat ∧ 34 = 32 + (groupCode .bY).toNat ∧ 35 = 35 + (groupCode .y).toNat ∧
        37 = 35 + (groupCode .bY).toNat) ∧
      (((readable .idle).raw.get .bY).valid = true ∧ readReg (readable .idle) 34 = 0x00010001#32 ∧
        ((readable .idle).nrm.get .bY).valid = true ∧ readReg (readable .idle) 37 = 0x00000007#32 ∧
        (readable .idle).rgb.valid = true ∧ readReg loaded 24 = 4#32 ∧ readReg loaded 27 = 3#32) ∧
      (readReg faulted 18 = 0x0212#32 ∧ readReg faulted 19 = 2#32 ∧ readReg faulted 20 = 40#32 ∧
        readReg faulted 21 = 1#32) ∧
      small.run.isBusy = false ∧ walking.run.isBusy = true ∧ (18 : Nat) ≠ 17 := by decide

theorem test_witness_StepServesTheHostsTransaction :
    small.run.isBusy = false ∧ (Transaction.readReg 17).wf = true ∧ (∀ v, Transaction.readReg 17 ≠ .writeReg 16 v) ∧
      (Transaction.loadRaw .y 2 2 []).wf = false :=
  ⟨by decide, by decide, fun _ h => (by cases h), by decide⟩

theorem test_witness_StepKeepsTheStateWellFormed :
    { loaded with inbox := [commandIssue 0x10#8] }.Inv ∧
      (nextOf (step { loaded with inbox := [commandIssue 0x10#8] })).isSome = true :=
  ⟨test_loaded_inv, by decide⟩

theorem test_witness_StepKeepsMemoriesCanonical :
    walking.memoriesWf ∧ (nextOf (step walking)).isSome = true := by decide

theorem test_witness_WellFormedStatesNeverReadAMissingValue :
    { loaded with inbox := [commandIssue 0x20#8] }.Inv ∧ { loaded with inbox := [.loadRaw .y 2 2 []] }.Inv :=
  ⟨test_loaded_inv, test_loaded_inv⟩

theorem test_witness_CommandIsItsElementarySteps :
    loaded.Inv ∧ loaded.inbox = [] ∧ rejection (.render .y) loaded = none ∧ jobCheck (.render .y) loaded = none ∧
      exec (jobInstr (.render .y)) loaded = .next (after .renderY loaded) :=
  ⟨test_loaded_inv, by decide, by decide, by decide, next_of_isSome _ (by decide)⟩

theorem test_witness_InstructionsChangeOnlyTheirDestination :
    exec (jobInstr (.render .y)) loaded = .next (after .renderY loaded) ∧ walking.run = .busy (.render .y) ∧
      exec (.vfetch 0#16) walking = .next (after (.vfetch 0#16) walking) :=
  ⟨next_of_isSome _ (by decide), by decide, next_of_isSome _ (by decide)⟩

theorem test_witness_GroupsMayBeProcessedInEitherOrder :
    Group.y ≠ .ry ∧ loaded.Inv ∧ loaded.refused = false ∧
      exec (jobInstr (.render .y)) loaded = .next (after .renderY loaded) ∧
      exec (jobInstr (.render .ry)) (after .renderY loaded) = .next (after .renderRY (after .renderY loaded)) ∧
      exec (jobInstr (.render .ry)) loaded = .next (after .renderRY loaded) ∧
      exec (jobInstr (.render .y)) (after .renderRY loaded) = .next (after .renderY (after .renderRY loaded)) ∧
      (after .renderRY (after .renderY loaded)).endedWell ∧ (after .renderY (after .renderRY loaded)).endedWell :=
  ⟨by decide, test_loaded_inv, by decide, next_of_isSome _ (by decide), next_of_isSome _ (by decide),
    next_of_isSome _ (by decide), next_of_isSome _ (by decide), by decide, by decide⟩

theorem test_witness_DumpReaderLoadsTheTokensInOrder :
    (∀ l ∈ ["0010 x".toList, [], "00ff".toList], firstToken l ≠ "<HEADER_BEGIN>".toList) ∧
      (["0010 x".toList, [], "00ff".toList].map firstToken).filterMap
        (fun t => if t = [] then none else some (parseToken t)) = [0x0010#16, 0x00FF#16].map some := by decide

end Sys2Proof.Tests
end

/-! Proofs of the statements on the scope (spec/00_scope.md): what every store, register and plane holds after
reset (R40), and the command word that the host writes to `CMD` (R2, R74, R216). -/

/-! ### The open range parameters (R11, R31) -/

namespace Sys2Proof.Config

/-- All that is known of `RANGE_RY`: it is a legal range (log 1). -/
theorem rangeRY_bounds : 1 ≤ rangeRY.toNat ∧ rangeRY.toNat ≤ 255 :=
  ⟨Nat.le_add_left 1 rangeRYPred.val, rangeRYPred.isLt⟩

/-- All that is known of `RANGE_BY`: it is a legal range (log 1). -/
theorem rangeBY_bounds : 1 ≤ rangeBY.toNat ∧ rangeBY.toNat ≤ 255 :=
  ⟨Nat.le_add_left 1 rangeBYPred.val, rangeBYPred.isLt⟩

end Sys2Proof.Config

namespace Sys2Proof.Machine

/-! ### Registers and stores after reset (R40) -/

/-- A register number from 42 on does not exist, and reads 0 in every state (R33). -/
theorem readReg_of_ge {n : Nat} (h : 42 ≤ n) (s : State) : readReg s n = 0#32 := by
  obtain ⟨m, rfl⟩ := Nat.exists_eq_add_of_le' h
  rfl

/-- A range register reads as its byte, zero-extended (R30). -/
theorem toNat_readReg_range (s : State) :
    (readReg s 7).toNat = s.cfg.cRangeRY.toNat ∧ (readReg s 8).toNat = s.cfg.cRangeBY.toNat :=
  ⟨BitVec.toNat_setWidth_of_le (by decide), BitVec.toNat_setWidth_of_le (by decide)⟩

/-- After reset every number but those of the configuration registers reads 0: no flag, no record, no length (R40). -/
theorem readReg_reset {n : Nat} (h : 9 ≤ n) : readReg State.reset n = 0#32 := by
  by_cases hn : n < 42
  · have existing : ∀ m < 42, 9 ≤ m → readReg State.reset m = 0#32 := by decide
    exact existing n hn h
  · exact readReg_of_ge (Nat.le_of_not_lt hn) State.reset

/-- A bank that holds no value has no element in any channel, nor in one it does not have. -/
@[simp] theorem RomBank.empty_getD (n c : Nat) : (RomBank.empty n).chans.getD c [] = [] := by
  rw [RomBank.empty, List.getD_eq_getElem?_getD, List.getElem?_getD_replicate_default_eq]

@[simp] theorem romChan_reset (g : Group) (c : Nat) : romChan State.reset g c = [] := by
  cases g <;> exact RomBank.empty_getD _ c

@[simp] theorem raw_reset (g : Group) : State.reset.raw.get g = Buffer.empty := by cases g <;> rfl

@[simp] theorem nrm_reset (g : Group) : State.reset.nrm.get g = Buffer.empty := by cases g <;> rfl

@[simp] theorem aln_reset (k : AlnSel) : State.reset.aln.get k = Buffer.empty := by cases k <;> rfl

/-! ### The command issue (R74, R216) -/

/-- A word that decodes is issued as the instruction it decodes to (R106). -/
theorem issue_of_decode {w : Byte} {i : Instr} (h : decode (.cw8 w) = .ok i) (s : State) : issue w s = exec i s := by
  have hd : decodeCommand w = .ok i := h
  simp only [issue, fetchCommand, hd]

/-- While no command runs, a command issue at the head of the inbox is taken from it and issued (R74). -/
theorem step_commandIssue {s : State} {w : Byte} {rest : List Transaction} (h : s.inbox = commandIssue w :: rest)
    (hb : s.run.isBusy = false) : step s = issue w { s with inbox := rest } := by
  obtain ⟨j, -, hc⟩ | ⟨e, -, hc⟩ := fetchCommand_cases w { s with inbox := rest } <;>
    simp only [step, issue, fetch_commandIssue h hb, hc]

/-- Settles O4: the constants are read off `State.reset`, the two open ranges keep the bounds of their type. -/
theorem resetLeavesTheStatedValues : Obligations.ResetLeavesTheStatedValues := by
  obtain ⟨hRY, hBY⟩ := toNat_readReg_range State.reset
  refine ⟨rfl, rfl, rfl, rfl, rfl, rfl, rfl, ?_, ?_, fun n => readReg_reset, rfl, rfl, romChan_reset, fun g => ?_,
    fun k => ?_, rfl⟩
  · rw [hRY]
    exact Config.rangeRY_bounds
  · rw [hBY]
    exact Config.rangeBY_bounds
  · rw [raw_reset, nrm_reset]
    exact ⟨rfl, rfl⟩
  · rw [aln_reset]
    rfl

/-- Settles O7: the step issues the word, and the issue of a word that decodes is `exec` of its instruction. -/
theorem stepExecutesTheIssuedCommand : Obligations.StepExecutesTheIssuedCommand := by
  intro s w rest hin hb
  have hstep := step_commandIssue hin hb
  refine ⟨hstep, fun i hdec _ => ?_⟩
  rw [hstep, issue_of_decode hdec]

end Sys2Proof.Machine

/-! Proofs of the statements on the state (spec/10_state.md): the well-formed state and what keeps it, the acceptance of a
command and the refusal that stays, the order of the walk, the registers, and a command as its elementary steps. -/

namespace Sys2Proof.Machine

/-! ### Buffers that hold their whole content (R25, R33, R64) -/

theorem Buffer.inv_empty {α : Type} : (Buffer.empty : Buffer α).Inv := ⟨nofun, fun _ => ⟨rfl, rfl⟩⟩

/-- A valid buffer holds its whole plane. -/
theorem Buffer.inv_of_full {α : Type} {m : Memory α} {d : BitVec 32} (h : Memory.full m (dimSize d)) :
    Buffer.Inv { valid := true, dim := d, mem := m } := ⟨fun _ => h, nofun⟩

/-- A plane of the shape of R75 fills the buffer it is loaded into. -/
theorem Buffer.inv_loaded {w h : Nat} {data : List Byte} (hok : planeShapeOk w h data = true) :
    (Buffer.loaded w h data).Inv := by
  simp only [planeShapeOk, Bool.and_eq_true, decide_eq_true_eq] at hok
  obtain ⟨⟨hw, hh⟩, hlen⟩ := hok
  refine Buffer.inv_of_full ?_
  rw [dimSize_packDim hw hh, ← hlen]
  exact Memory.full_ofList data

theorem RomBank.inv_empty (g : Group) : (RomBank.empty (cpg g)).Inv g := by
  refine ⟨List.length_replicate, nofun, fun _ => ⟨rfl, fun m hm => ?_⟩⟩
  rw [List.eq_of_mem_replicate hm, List.length_nil]

/-- A store of fewer than 2^32 entries holds as many as `VSEQ_LEN` says (R76). -/
theorem VseqStore.inv_loaded {entries : List Word16} (hlen : entries.length < 2 ^ 32) :
    VseqStore.Inv { valid := true, len := BitVec.ofNat 32 entries.length, mem := Memory.ofList entries } := by
  refine ⟨fun _ => ?_, nofun⟩
  rw [BitVec.toNat_ofNat, Nat.mod_eq_of_lt hlen]
  exact Memory.full_ofList entries

/-- Channel lists of the shape of R77 fill the bank they are loaded into. -/
theorem RomBank.inv_loaded {g : Group} {chans : List (List Byte)} (hok : romShapeOk g chans = true) :
    RomBank.Inv g
      { valid := true, len := BitVec.ofNat 32 (chans.headD []).length, chans := chans.map Memory.ofList } := by
  simp only [romShapeOk, Bool.and_eq_true, decide_eq_true_eq, List.all_eq_true] at hok
  obtain ⟨⟨⟨hcount, hsame⟩, hpos⟩, hlt⟩ := hok
  have hlen : (BitVec.ofNat 32 (chans.headD []).length).toNat = (chans.headD []).length := by
    rw [BitVec.toNat_ofNat, Nat.mod_eq_of_lt hlt]
  refine ⟨by rw [List.length_map, hcount], fun _ => ⟨by rw [hlen]; exact hpos, fun m hm => ?_⟩, nofun⟩
  obtain ⟨data, hdata, rfl⟩ := List.mem_map.mp hm
  rw [hlen, ← hsame data hdata]
  exact Memory.full_ofList data

/-! ### The contents after one buffer is replaced -/

section Buffers

variable {s : State}

/-- The contents' invariant, selection by selection. -/
theorem State.buffersInv_iff (s : State) :
    s.buffersInv ↔ s.vseq.Inv ∧ (∀ g, (s.rom.get g).Inv g) ∧ (∀ g, (s.raw.get g).Inv) ∧
      (∀ g, (s.nrm.get g).Inv) ∧ (∀ k, (s.aln.get k).Inv) ∧ s.rgb.Inv := by
  rw [← PerGroup.and_iff (P := fun g b => RomBank.Inv g b), ← PerGroup.and_iff (P := fun _ b => Buffer.Inv b),
    ← PerGroup.and_iff (P := fun _ b => Buffer.Inv b), ← PerAln.and_iff (P := Buffer.Inv)]

theorem State.buffersInv.set_rom (h : s.buffersInv) {g : Group} {b : RomBank} (hb : b.Inv g) :
    State.buffersInv { s with rom := s.rom.set g b } := by
  rw [State.buffersInv_iff] at h ⊢
  obtain ⟨hvseq, hrom, hrest⟩ := h
  exact ⟨hvseq, PerGroup.forall_set (P := fun g b => RomBank.Inv g b) hrom hb, hrest⟩

theorem State.buffersInv.set_raw (h : s.buffersInv) {g : Group} {b : Buffer Byte} (hb : b.Inv) :
    State.buffersInv { s with raw := s.raw.set g b } := by
  rw [State.buffersInv_iff] at h ⊢
  obtain ⟨hvseq, hrom, hraw, hrest⟩ := h
  exact ⟨hvseq, hrom, PerGroup.forall_set (P := fun _ b => Buffer.Inv b) hraw hb, hrest⟩

theorem State.buffersInv.set_nrm (h : s.buffersInv) {g : Group} {b : Buffer Byte} (hb : b.Inv) :
    State.buffersInv { s with nrm := s.nrm.set g b } := by
  rw [State.buffersInv_iff] at h ⊢
  obtain ⟨hvseq, hrom, hraw, hnrm, hrest⟩ := h
  exact ⟨hvseq, hrom, hraw, PerGroup.forall_set (P := fun _ b => Buffer.Inv b) hnrm hb, hrest⟩

theorem State.buffersInv.set_aln (h : s.buffersInv) {k : AlnSel} {b : Buffer Byte} (hb : b.Inv) :
    State.buffersInv { s with aln := s.aln.set k b } := by
  rw [State.buffersInv_iff] at h ⊢
  obtain ⟨hvseq, hrom, hraw, hnrm, haln, hrgb⟩ := h
  exact ⟨hvseq, hrom, hraw, hnrm, PerAln.forall_set (P := Buffer.Inv) haln hb, hrgb⟩

theorem State.buffersInv.set_vseq (h : s.buffersInv) {v : VseqStore} (hv : v.Inv) :
    State.buffersInv { s with vseq := v } := by
  obtain ⟨-, hrest⟩ := h
  exact ⟨hv, hrest⟩

theorem State.buffersInv.set_rgb (h : s.buffersInv) {b : Buffer Rgb} (hb : b.Inv) :
    State.buffersInv { s with rgb := b } := by
  obtain ⟨hvseq, hrom, hraw, hnrm, haln, -⟩ := h
  exact ⟨hvseq, hrom, hraw, hnrm, haln, hb⟩

end Buffers

/-! ### The flags (R24, R26, R32) -/

/-- Every reason has a code, and none above 4 (R216). -/
theorem RefuseReason.code_bounds (r : RefuseReason) : r.code ≠ 0#8 ∧ r.code.toNat ≤ 4 := by
  cases r <;> decide

/-- Every fault is of one of the three causes (R200). -/
theorem FaultKind.cause_bounds (k : FaultKind) : 1 ≤ k.cause.toNat ∧ k.cause.toNat ≤ 3 := by
  cases k <;> simp [FaultKind.cause]

/-- `CAUSE` stands in bits 3:0 of `FAULT_CAUSE` (R32). -/
@[simp] theorem FaultRecord.causeField_word (k : FaultKind) (i v : BitVec 32) :
    FaultRecord.causeField { cause := k.word, index := i, value := v } = k.cause := by
  simp only [FaultRecord.causeField, FaultKind.word]
  rw [BitVec.extractLsb'_append_eq_of_add_le (by omega)]
  simp

section Flags

variable {s : State}

/-- A refused command leaves a reason behind, its own or the first (R215). -/
theorem State.flagsInv.refuse (h : s.flagsInv) (r : RefuseReason) : (refuse r s).flagsInv := by
  obtain ⟨hbusy, hfault, hidle, -, hle⟩ := h
  obtain ⟨hne, hcode⟩ := r.code_bounds
  refine ⟨hbusy, hfault, hidle, ?_⟩
  rw [refuse_refuseReason]
  split
  · exact ⟨iff_of_true rfl hne, hcode⟩
  · next hs => exact ⟨iff_of_true rfl hs, hle⟩

/-- A recorded fault goes with `STATE = FAULT` (R206). -/
theorem State.flagsInv.fault (h : s.flagsInv) (k : FaultKind) (i v : BitVec 32) :
    State.flagsInv { s with run := .fault, faultRec := { cause := k.word, index := i, value := v } } := by
  obtain ⟨-, -, -, hrefused, hle⟩ := h
  refine ⟨rfl, fun _ => ?_, nofun, hrefused, hle⟩
  rw [FaultRecord.causeField_word]
  exact k.cause_bounds

/-- A completed command leaves the flags of the IDLE state it was issued in (R132, R163, R187). -/
theorem State.flagsInv.idle (h : s.flagsInv) (hrun : s.run = .idle) : State.flagsInv { s with run := .idle } := by
  obtain ⟨-, -, hrec, hrefused, hle⟩ := h
  exact ⟨rfl, nofun, fun _ => hrec hrun, hrefused, hle⟩

end Flags

/-! ### What an issued command keeps -/

section Commands

variable {s t : State}

/-- The end of a `RENDER.g`, completed or faulted, keeps the well-formed state. -/
theorem inv_of_render (h : s.Inv) {g : Group} (hacc : rejection (.render g) s = none) (ht : render g s = .next t) :
    t.Inv := by
  obtain ⟨hflags, hbufs⟩ := h
  obtain ⟨hvseq, hrom, -⟩ := (State.buffersInv_iff s).mp hbufs
  obtain ⟨hrun, hlegal, -⟩ := (rejection_eq_none_iff _ _).mp hacc
  obtain ⟨-, h⟩ | ⟨-, q, a, -, -, -, -, h⟩ | ⟨-, -, m, ⟨hfull, -⟩, h⟩ := render_accepted_cases hacc hvseq (hrom g) <;>
    obtain rfl := Host.Outcome.next.inj (ht.symm.trans h)
  · exact ⟨hflags.fault _ _ _, hbufs.set_raw Buffer.inv_empty⟩
  · exact ⟨hflags.fault _ _ _, hbufs.set_raw Buffer.inv_empty⟩
  · refine ⟨hflags.idle hrun, hbufs.set_raw (Buffer.inv_of_full ?_)⟩
    rwa [dimSize_rendered hlegal, ← Nat.min_eq_right (drawnCount_le s.cfg)]

/-- The end of a `NORM.g`, completed or faulted, keeps the well-formed state. -/
theorem inv_of_norm (h : s.Inv) {g : Group} (hacc : rejection (.norm g) s = none) (ht : norm g s = .next t) :
    t.Inv := by
  obtain ⟨hflags, hbufs⟩ := h
  obtain ⟨-, -, hraw, -⟩ := (State.buffersInv_iff s).mp hbufs
  obtain ⟨hrun, -⟩ := (rejection_eq_none_iff _ _).mp hacc
  obtain ⟨m, hfull, -, h⟩ | ⟨q, v, -, -, -, -, h⟩ := norm_accepted_cases hacc (hraw g) <;>
    obtain rfl := Host.Outcome.next.inj (ht.symm.trans h)
  · exact ⟨hflags.idle hrun, hbufs.set_nrm (Buffer.inv_of_full hfull)⟩
  · exact ⟨hflags.fault _ _ _, hbufs.set_nrm Buffer.inv_empty⟩

/-- The end of a `COMPOSE`, completed or faulted, keeps the well-formed state. -/
theorem inv_of_compose (h : s.Inv) (hacc : rejection .compose s = none) (ht : execCompose s = .next t) : t.Inv := by
  obtain ⟨hflags, hbufs⟩ := h
  have ⟨_, _, _, _, haln, _⟩ := hbufs
  obtain ⟨hrun, -⟩ := (rejection_eq_none_iff _ _).mp hacc
  cases hcheck : composeCheck s with
  | some fault =>
    obtain ⟨k, i, v⟩ := fault
    obtain rfl := Host.Outcome.next.inj (ht.symm.trans (compose_faults hacc hcheck))
    exact ⟨hflags.fault _ _ _, hbufs.set_rgb Buffer.inv_empty⟩
  | none =>
    obtain ⟨m, hfull, -, h⟩ := compose_completes hacc hcheck haln
    obtain rfl := Host.Outcome.next.inj (ht.symm.trans h)
    exact ⟨hflags.idle hrun, hbufs.set_rgb (Buffer.inv_of_full hfull)⟩

/-- An issued command keeps the well-formed state: refused, faulted or completed. -/
theorem inv_of_exec_job (h : s.Inv) {j : Job} (ht : exec (jobInstr j) s = .next t) : t.Inv := by
  cases hacc : rejection j s with
  | some r =>
    obtain rfl := Host.Outcome.next.inj (ht.symm.trans (exec_job_refused hacc))
    obtain ⟨hflags, hbufs⟩ := h
    exact ⟨hflags.refuse r, hbufs⟩
  | none =>
    cases j with
    | render g => exact inv_of_render h hacc ((exec_render g s).symm.trans ht)
    | norm g => exact inv_of_norm h hacc ((exec_norm g s).symm.trans ht)
    | compose => exact inv_of_compose h hacc ht

end Commands

/-! ### What a host transaction keeps -/

/-- A host write leaves what both the state and the written state have (R74). -/
theorem whenIdle_of_both {P : State → Prop} {s s' : State} (h : P s) (h' : P s') : P (whenIdle s s') := by
  by_cases hrun : s.run = .idle
  · rwa [whenIdle_of_idle hrun]
  · rwa [whenIdle_of_ne hrun]

/-- A register read answers, or does nothing (R74). -/
theorem hostReadReg_cases (n : Nat) (s : State) :
    hostReadReg n s = s ∨ hostReadReg n s = deliver (.reg n (readReg s n)) s := by
  unfold hostReadReg
  split
  · exact .inl rfl
  · exact .inr rfl

/-- A plane read answers, or does nothing (R79). -/
theorem hostReadPlane_cases (b : ReadSel) (s : State) :
    hostReadPlane b s = s ∨ ∃ r, hostReadPlane b s = deliver r s := by
  unfold hostReadPlane
  split
  · exact .inl rfl
  · split
    · exact .inr ⟨_, rfl⟩
    · exact .inl rfl

theorem State.reset_flagsInv : State.reset.flagsInv :=
  ⟨rfl, nofun, fun _ => rfl, ⟨nofun, fun h => absurd rfl h⟩, Nat.zero_le 4⟩

theorem State.reset_buffersInv : State.reset.buffersInv := by
  rw [State.buffersInv_iff]
  refine ⟨⟨nofun, fun _ => ⟨rfl, rfl⟩⟩, fun g => ?_, fun g => ?_, fun g => ?_, fun k => ?_, Buffer.inv_empty⟩
  · cases g <;> exact RomBank.inv_empty _
  · rw [raw_reset]
    exact Buffer.inv_empty
  · rw [nrm_reset]
    exact Buffer.inv_empty
  · rw [aln_reset]
    exact Buffer.inv_empty

/-- A well-formed host transaction keeps the well-formed state. -/
theorem inv_of_transact {s : State} (h : s.Inv) {t : Transaction} (hwf : t.wf = true) : (transact t s).Inv := by
  have ⟨hflags, hbufs⟩ := h
  cases t with
  | reset => exact ⟨State.reset_flagsInv, State.reset_buffersInv⟩
  | writeReg n v => exact whenIdle_of_both (P := State.Inv) h h
  | readReg n => obtain hr | hr := hostReadReg_cases n s <;> rw [transact, hr] <;> exact h
  | loadVseq entries =>
    have hlen : entries.length < 2 ^ 32 := of_decide_eq_true hwf
    exact whenIdle_of_both (P := State.Inv) h ⟨hflags, hbufs.set_vseq (VseqStore.inv_loaded hlen)⟩
  | loadRom g chans => exact whenIdle_of_both (P := State.Inv) h ⟨hflags, hbufs.set_rom (RomBank.inv_loaded hwf)⟩
  | loadRaw g w ht data => exact whenIdle_of_both (P := State.Inv) h ⟨hflags, hbufs.set_raw (Buffer.inv_loaded hwf)⟩
  | loadAligned k w ht data =>
    exact whenIdle_of_both (P := State.Inv) h ⟨hflags, hbufs.set_aln (Buffer.inv_loaded hwf)⟩
  | readPlane b => obtain hr | ⟨r, hr⟩ := hostReadPlane_cases b s <;> rw [transact, hr] <;> exact h

/-- Settles O46: no flag is set, every store and plane is empty, and every empty memory is canonical. -/
theorem resetIsWellFormed : Obligations.ResetIsWellFormed :=
  ⟨⟨State.reset_flagsInv, State.reset_buffersInv⟩, by decide⟩

/-- Settles O47: no command runs, so the step waits, refuses a reserved word, or is a command or a transaction that keeps the
invariant. -/
theorem stepKeepsTheStateWellFormed : Obligations.StepKeepsTheStateWellFormed := by
  intro s t h hstep
  have ⟨hflags, hbufs⟩ := h
  have ⟨hbusy, _⟩ := hflags
  obtain ⟨-, hs⟩ | ⟨_, _, -, -, hs⟩ | ⟨j, rest, hs, -⟩ | ⟨rest, hs, -⟩ | ⟨u, rest, -, hwf, hs⟩ :=
    step_not_busy_cases hbusy <;> rw [hs] at hstep
  · obtain rfl := Host.Outcome.next.inj hstep
    exact h
  · exact absurd hstep nofun
  · exact inv_of_exec_job (s := { s with inbox := rest }) h hstep
  · obtain rfl := Host.Outcome.next.inj hstep
    exact ⟨State.flagsInv.refuse (s := { s with inbox := rest }) hflags _, hbufs⟩
  · obtain rfl := Host.Outcome.next.inj hstep
    exact inv_of_transact (s := { s with inbox := rest }) h hwf

/-! ### The acceptance of a command (R31, R216) -/

/-- The seven words of R92 to R98. -/
def legalWords : List Byte := [0x10#8, 0x11#8, 0x12#8, 0x20#8, 0x21#8, 0x22#8, 0x30#8]

/-- Only the seven words are commands (R106). -/
theorem mem_legalWords_of_decode {w : Byte} {i : Instr} (h : decodeCommand w = .ok i) : w ∈ legalWords := by
  have hall : ∀ w : Byte, (decodeCommand w).isOk = true → w ∈ legalWords := by decide
  exact hall w (by rw [h]; rfl)

/-- The issue of a word that is no command is refused, by check 1 or by check 2 (R216). -/
theorem issue_of_reserved {w : Byte} (s : State) (hw : w ∉ legalWords) :
    issue w s = .next (refuse (reservedRejection s) s) := by
  obtain ⟨j, hdec, -⟩ | ⟨e, -, hc⟩ := fetchCommand_cases w s
  · exact absurd (mem_legalWords_of_decode hdec) hw
  · rw [issue, hc]

/-- Outside IDLE every word written to `CMD` is refused by check 1 (R216). -/
theorem issue_of_not_idle {s : State} (hrun : s.run ≠ .idle) (w : Byte) : issue w s = .next (refuse .notIdle s) := by
  obtain ⟨j, hdec, -⟩ | ⟨e, -, hc⟩ := fetchCommand_cases w s
  · rw [issue_of_decode hdec, exec_job_refused (rejection_of_not_idle hrun)]
  · rw [issue, hc]
    simp only [reservedRejection, if_pos hrun]

/-- Checks 3 and 4 of a command in IDLE, whatever the registers' legality and the sources' validity come to: the reason of
the first that fails, else the start (R216). -/
theorem exec_job_by_checks {j : Job} {s : State} {legal valid : Prop} (hrun : s.run = .idle)
    (hlegal : configLegal j s.cfg = true ↔ legal) (hvalid : inputsValid j s = true ↔ valid) :
    (¬ legal → exec (jobInstr j) s = .next (refuse .cfgIllegal s)) ∧
    (legal → ¬ valid → exec (jobInstr j) s = .next (refuse .inputNotValid s)) ∧
    (legal → valid → exec (jobInstr j) s = runBegun j (jobCheck j) (jobMicro j) (begin j s)) := by
  rw [← hlegal, ← hvalid]
  refine ⟨fun hl => ?_, fun hl hv => ?_, fun hl hv => ?_⟩
  · exact exec_job_refused (rejection_of_illegal hrun (Bool.eq_false_iff.mpr hl))
  · exact exec_job_refused (rejection_of_invalid hrun hl (Bool.eq_false_iff.mpr hv))
  · rw [exec_job, runCommand_accepted ((rejection_eq_none_iff j s).mpr ⟨hrun, hl, hv⟩)]

/-- The sources that a `RENDER.g` checks (R216, check 4). -/
theorem inputsValid_render_iff (g : Group) (s : State) :
    inputsValid (.render g) s = true ↔ (s.rom.get g).valid = true ∧ s.vseq.valid = true := by
  simp only [inputsValid, Bool.and_eq_true]

/-- The sources that `COMPOSE` checks (R216, check 4). -/
theorem inputsValid_compose_iff (s : State) :
    inputsValid .compose s = true ↔ s.aln.y.valid = true ∧ s.aln.cb.valid = true ∧ s.aln.cr.valid = true := by
  simp only [inputsValid, Bool.and_eq_true, and_assoc]

/-- Settles O9: checks 1 and 2 on any word, checks 3 and 4 job by job with the legality of R31. -/
theorem commandsAreAcceptedByTheTableOfChecks : Obligations.CommandsAreAcceptedByTheTableOfChecks := by
  intro s w
  refine ⟨fun hrun => issue_of_not_idle hrun w, fun hrun hw => ?_, fun j hrun hdec => ?_, rfl, rfl, rfl, rfl⟩
  · rw [issue_of_reserved s hw]
    simp only [reservedRejection, hrun, ne_eq, not_true_eq_false, if_false]
  · rw [issue_of_decode hdec]
    cases j with
    | render g => exact exec_job_by_checks hrun (geometryLegal_iff s.cfg) (inputsValid_render_iff g s)
    | norm g =>
      cases g with
      | y => exact exec_job_by_checks hrun (lumaLegal_iff s.cfg) Iff.rfl
      | ry => exact exec_job_by_checks hrun (chromaLegal_iff s.cfg s.cfg.cRangeRY) Iff.rfl
      | bY => exact exec_job_by_checks hrun (chromaLegal_iff s.cfg s.cfg.cRangeBY) Iff.rfl
    | compose => exact exec_job_by_checks hrun (iff_of_true rfl trivial) (inputsValid_compose_iff s)

/-! ### The first refusal stays (R26, R215) -/

/-- `t` has the refusal record of `s`. -/
def SameRefusal (s t : State) : Prop := t.refused = s.refused ∧ t.refuseReason = s.refuseReason

theorem SameRefusal.refl (s : State) : SameRefusal s s := ⟨rfl, rfl⟩

theorem JobChange.sameRefusal {j : Job} {s t : State} (h : JobChange j s t) : SameRefusal s t := by
  obtain ⟨-, -, hrefused, hreason, -⟩ := h.keeps
  exact ⟨hrefused, hreason⟩

/-- A further refusal changes nothing once one is recorded (R215). -/
theorem sameRefusal_refuse {s : State} (hs : s.refused = true) (hreason : s.refuseReason ≠ 0#8) (r : RefuseReason) :
    SameRefusal s (refuse r s) :=
  ⟨hs.symm, by rw [refuse_refuseReason, if_neg hreason]⟩

/-- No host transaction but `Reset` touches the refusal record (R26, R240). -/
theorem sameRefusal_transact {t : Transaction} (ht : t ≠ .reset) (s : State) : SameRefusal s (transact t s) := by
  have hwrite : ∀ s', SameRefusal s s' → SameRefusal s (whenIdle s s') := fun s' h' =>
    whenIdle_of_both (P := SameRefusal s) (.refl s) h'
  cases t with
  | reset => exact absurd rfl ht
  | writeReg n v => exact hwrite _ ⟨rfl, rfl⟩
  | readReg n => obtain hr | hr := hostReadReg_cases n s <;> rw [transact, hr] <;> exact ⟨rfl, rfl⟩
  | loadVseq entries => exact hwrite _ ⟨rfl, rfl⟩
  | loadRom g chans => exact hwrite _ ⟨rfl, rfl⟩
  | loadRaw g w h data => exact hwrite _ ⟨rfl, rfl⟩
  | loadAligned k w h data => exact hwrite _ ⟨rfl, rfl⟩
  | readPlane b => obtain hr | ⟨r, hr⟩ := hostReadPlane_cases b s <;> rw [transact, hr] <;> exact ⟨rfl, rfl⟩

/-- A step of a running command leaves the refusal record alone. -/
theorem sameRefusal_step_busy {j : Job} {s t : State} (hreset : resetPending s = false) (hrun : s.run = .busy j)
    (hstep : step s = .next t) : SameRefusal s t := by
  obtain ⟨g, a, -, -, hs⟩ | hs := step_busy_cases hreset hrun <;> rw [hs] at hstep
  · obtain ⟨_, -, hchange⟩ := exec_vfetch_change hstep
    exact hchange.sameRefusal
  · exact (jobMicro_change hrun hstep).sameRefusal

/-- A step while no command runs leaves a refusal record that stands, unless it serves a `Reset`. -/
theorem sameRefusal_step_not_busy {s t : State} (hreset : resetPending s = false) (hbusy : s.run.isBusy = false)
    (hs : s.refused = true) (hreason : s.refuseReason ≠ 0#8) (hstep : step s = .next t) : SameRefusal s t := by
  obtain ⟨-, h⟩ | ⟨_, _, -, -, h⟩ | ⟨j, rest, h, -⟩ | ⟨rest, h, -⟩ | ⟨u, rest, hin, -, h⟩ :=
    step_not_busy_cases hbusy <;> rw [h] at hstep
  · obtain rfl := Host.Outcome.next.inj hstep
    exact .refl s
  · exact absurd hstep nofun
  · obtain ⟨r, rfl⟩ | hchange := exec_job_change hstep
    · exact sameRefusal_refuse (s := { s with inbox := rest }) hs hreason r
    · exact hchange.sameRefusal
  · obtain rfl := Host.Outcome.next.inj hstep
    exact sameRefusal_refuse (s := { s with inbox := rest }) hs hreason _
  · obtain rfl := Host.Outcome.next.inj hstep
    refine sameRefusal_transact (fun hu => ?_) { s with inbox := rest }
    rw [(resetPending_cons_iff s).mpr ⟨rest, hu ▸ hin⟩] at hreset
    cases hreset

/-- Settles O11: by whether a command runs. -/
theorem refusalIsStickyUntilReset : Obligations.RefusalIsStickyUntilReset := by
  intro s t hreset hs hreason hstep
  have hsame : SameRefusal s t := by
    cases hrun : s.run with
    | busy j => exact sameRefusal_step_busy hreset hrun hstep
    | idle => exact sameRefusal_step_not_busy hreset (by rw [hrun]; rfl) hs hreason hstep
    | fault => exact sameRefusal_step_not_busy hreset (by rw [hrun]; rfl) hs hreason hstep
  exact ⟨hsame.1.trans hs, hsame.2⟩

/-! ### The order of the walk (R22, R127) -/

/-- The working registers after `t` advances are those of walk step `t`. -/
theorem iterate_advance_walkStart {c : ConfigRegs} (h : 0 < lineWidth c) (t : Nat) :
    (fun w => Walk.advance w c)^[t] (walkStart c) = walkAt c t := by
  induction t with
  | zero => exact walkStart_eq h
  | succ t ih =>
    rw [Function.iterate_succ_apply', ih]
    exact walkAt_advance h t 0

/-- The step at which the walk stands at position `p` of line `k` of field `f`, and the index it reads there (R127). -/
theorem walkIndex_of_position {c : ConfigRegs} {f p : Nat} (k : Nat) (hf : f < 2) (hp : p < lineWidth c) :
    walkIndex c ((2 * k + f) * lineWidth c + p) = f * fieldLen c + k * lineWidth c + p := by
  have hline : ((2 * k + f) * lineWidth c + p) / lineWidth c = 2 * k + f := by
    rw [Nat.mul_comm, Nat.mul_add_div (by omega), Nat.div_eq_of_lt hp, Nat.add_zero]
  have hpos : ((2 * k + f) * lineWidth c + p) % lineWidth c = p := by
    rw [Nat.mul_comm, Nat.mul_add_mod, Nat.mod_eq_of_lt hp]
  rw [walkIndex, hline, hpos, show (2 * k + f) % 2 = f by omega, show (2 * k + f) / 2 = k by omega]

/-- Settles O16: the cursor of walk step `t` is the `t`-th index, and step `VREQ` is the end. -/
theorem walkVisitsLinesFieldsAndPositionsInOrder : Obligations.WalkVisitsLinesFieldsAndPositionsInOrder := by
  intro c hl
  refine ⟨fun k f p _ hf hp => ?_, ?_⟩
  · rw [iterate_advance_walkStart hl, walkAt_cursor, walkIndex_of_position k hf hp]
  · rw [iterate_advance_walkStart hl, walkAt_end hl]
    exact ⟨rfl, rfl, rfl⟩

/-! ### Instructions fetched from a running walk (R22, R125) -/

/-- While a walk runs that is not at its end and no `Reset` is pending, the step is the `VFETCH` of the entry at the cursor. -/
theorem step_of_entry {s : State} {g : Group} {a : Word16} (hreset : resetPending s = false)
    (hrun : s.run = .busy (.render g)) (hk : s.walk.k < lineCount s.cfg)
    (hread : readVseq s s.walk.cursor = some a) : step s = exec (.vfetch a) s := by
  have hdone : walkDone s = false := decide_eq_false (Nat.not_le_of_lt hk)
  simp only [step, fetch, hreset, hrun, fetchBusy, hdone, hread, decodeVector, Bool.false_eq_true, if_false]

/-- Settles O8: every entry decodes to the `VFETCH` of its bits, which the running walk executes. -/
theorem stepExecutesTheFetchedVectorEntry : Obligations.StepExecutesTheFetchedVectorEntry := by
  intro s g w i hreset hrun hk hread hdec _
  obtain rfl : Instr.vfetch w = i := Except.ok.inj hdec
  exact step_of_entry hreset hrun hk hread

/-! ### The fault record (R200 to R205) -/

/-- Settles O34: every field is read off the table, and the sub-cause of an overshoot depends on the group. -/
theorem faultCauseWordsFollowTheTable : Obligations.FaultCauseWordsFollowTheTable := by
  intro g
  refine ⟨rfl, rfl, ?_, rfl, rfl, rfl, rfl, rfl⟩
  cases g <;> rfl

/-! ### Register numbers (R30, R32, R33) -/

/-- The value of configuration register `n`, zero-extended (R30). -/
def ConfigRegs.read (c : ConfigRegs) : Nat → BitVec 32
  | 0 => c.backLen.setWidth 32
  | 1 => c.rasterLen.setWidth 32
  | 2 => c.frontLen.setWidth 32
  | 3 => c.numLines.setWidth 32
  | 4 => c.yLow.setWidth 32
  | 5 => c.yHigh.setWidth 32
  | 6 => c.cHeadroom.setWidth 32
  | 7 => c.cRangeRY.setWidth 32
  | 8 => c.cRangeBY.setWidth 32
  | _ => 0#32

/-- The numbers below 9 are those of the configuration registers (R30). -/
theorem readReg_of_lt {n : Nat} (h : n < 9) (s : State) : readReg s n = s.cfg.read n := by
  interval_cases n <;> rfl

/-- No register from number 9 on shows a configuration register (R32, R33). -/
theorem readReg_with_cfg_of_ge {n : Nat} (h : 9 ≤ n) (s : State) (c : ConfigRegs) :
    readReg { s with cfg := c } n = readReg s n := by
  by_cases hn : n < 42
  · interval_cases n <;> rfl
  · rw [readReg_of_ge (Nat.le_of_not_lt hn), readReg_of_ge (Nat.le_of_not_lt hn)]

/-- A write from number 9 on changes no configuration register (R32, R33). -/
theorem ConfigRegs.write_of_ge {n : Nat} (h : 9 ≤ n) (c : ConfigRegs) (v : Nat) : c.write n v = c := by
  obtain ⟨m, rfl⟩ := Nat.exists_eq_add_of_le' h
  rfl

/-- A value of at most `w` bits keeps its number in a register of `w` bits that reads as 32. -/
theorem toNat_setWidth_ofNat {w v : Nat} (hw : w ≤ 32) (hv : v < 2 ^ w) :
    ((BitVec.ofNat w v).setWidth 32).toNat = v := by
  rw [BitVec.toNat_setWidth_of_le hw, BitVec.toNat_ofNat, Nat.mod_eq_of_lt hv]

/-- A value that fits is what is read of the register it was written to (R30). -/
theorem ConfigRegs.read_write_same {n v : Nat} (h : n < 9) (hfits : writeFits n v = true) (c : ConfigRegs) :
    ((c.write n v).read n).toNat = v := by
  interval_cases n <;> exact toNat_setWidth_ofNat (by decide) (of_decide_eq_true hfits)

/-- A write changes no other configuration register (R30). -/
theorem ConfigRegs.read_write_other {n m : Nat} (hn : n < 9) (hm : m < 9) (hne : m ≠ n) (c : ConfigRegs) (v : Nat) :
    (c.write n v).read m = c.read m := by
  interval_cases n <;> interval_cases m <;> simp [ConfigRegs.write, ConfigRegs.read] at hne ⊢

/-- Settles O42: the register written is a configuration register or none. -/
theorem registerWritesStoreTheValue : Obligations.RegisterWritesStoreTheValue := by
  intro s n v hrun _ hfits
  have ht : transact (.writeReg n v) s = { s with cfg := s.cfg.write n v } := whenIdle_of_idle hrun
  rw [ht]
  refine ⟨fun hn => ?_, fun m hne => ?_, fun hn => ?_, rfl⟩
  · rw [readReg_of_lt hn]
    exact ConfigRegs.read_write_same hn hfits s.cfg
  · by_cases hm : m < 9
    · rw [readReg_of_lt hm, readReg_of_lt hm]
      by_cases hn : n < 9
      · exact ConfigRegs.read_write_other hn hm hne s.cfg v
      · rw [ConfigRegs.write_of_ge (Nat.le_of_not_lt hn)]
    · exact readReg_with_cfg_of_ge (Nat.le_of_not_lt hm) s _
  · rw [ConfigRegs.write_of_ge hn]

/-- Settles O43: a bit of the concatenation is a bit of the field it falls in. -/
theorem statusBitsAreTheFlags : Obligations.StatusBitsAreTheFlags := by
  intro s
  refine ⟨?_, fun i hi hlo => ?_, rfl, fun _ => rfl, rfl⟩
  · show (statusWord s).extractLsb' 0 2 = s.run.code
    rw [statusWord, BitVec.extractLsb'_append_eq_of_add_le (by omega)]
    simp
  · show (statusWord s).getLsbD i = _
    simp only [statusWord, BitVec.getLsbD_append]
    interval_cases i <;> simp

/-- A narrower register is read with zeros above it (log 16). -/
theorem toNat_readReg_cfg (s : State) :
    (readReg s 0).toNat = s.cfg.backLen.toNat ∧ (readReg s 1).toNat = s.cfg.rasterLen.toNat ∧
      (readReg s 2).toNat = s.cfg.frontLen.toNat ∧ (readReg s 3).toNat = s.cfg.numLines.toNat ∧
      (readReg s 4).toNat = s.cfg.yLow.toNat ∧ (readReg s 5).toNat = s.cfg.yHigh.toNat ∧
      (readReg s 6).toNat = s.cfg.cHeadroom.toNat ∧ (readReg s 7).toNat = s.cfg.cRangeRY.toNat ∧
      (readReg s 8).toNat = s.cfg.cRangeBY.toNat := by
  have hzext : ∀ {w : Nat} (x : BitVec w), w ≤ 32 → (x.setWidth 32).toNat = x.toNat := fun x hw =>
    BitVec.toNat_setWidth_of_le hw
  exact ⟨hzext _ (by decide), hzext _ (by decide), hzext _ (by decide), hzext _ (by decide), hzext _ (by decide),
    hzext _ (by decide), hzext _ (by decide), toNat_readReg_range s⟩

/-- `CMD` and the numbers that do not exist read 0 (R32, R33). -/
theorem readReg_absent {n : Nat} (h : (9 ≤ n ∧ n ≤ 16) ∨ n = 22 ∨ n = 23 ∨ (28 ≤ n ∧ n ≤ 31) ∨ 42 ≤ n) (s : State) :
    readReg s n = 0#32 := by
  obtain ⟨hlo, hhi⟩ | rfl | rfl | ⟨hlo, hhi⟩ | h := h
  · interval_cases n <;> rfl
  · rfl
  · rfl
  · interval_cases n <;> rfl
  · exact readReg_of_ge h s

/-- `ROM_LEN_g` (R33). -/
theorem readReg_rom (g : Group) (s : State) :
    readReg s (25 + (groupCode g).toNat) = whileValid (s.rom.get g).valid (s.rom.get g).len := by
  cases g <;> rfl

/-- `DIM_RAW_g` (R33). -/
theorem readReg_raw (g : Group) (s : State) :
    readReg s (32 + (groupCode g).toNat) = whileValid (s.raw.get g).valid (s.raw.get g).dim := by
  cases g <;> rfl

/-- `DIM_NRM_g` (R33). -/
theorem readReg_nrm (g : Group) (s : State) :
    readReg s (35 + (groupCode g).toNat) = whileValid (s.nrm.get g).valid (s.nrm.get g).dim := by
  cases g <;> rfl

/-- A register whose read is a dimension register's shows width and height while the valid bit is 1, else 0 (R33). -/
theorem readReg_dim_fields {s : State} {n : Nat} {valid : Bool} {dim : BitVec 32}
    (h : readReg s n = whileValid valid dim) :
    (valid = true →
      ((readReg s n).extractLsb' 16 16).toNat = dimWidth dim ∧ ((readReg s n).extractLsb' 0 16).toNat = dimHeight dim) ∧
    (valid = false → readReg s n = 0#32) := by
  rw [h]
  exact ⟨fun hv => hv ▸ ⟨rfl, rfl⟩, fun hv => hv ▸ rfl⟩

/-- Settles O44: number by number, and the read transaction by whether it answers. -/
theorem registerReadsFollowTheMap : Obligations.RegisterReadsFollowTheMap := by
  intro s
  refine ⟨toNat_readReg_cfg s,
    ⟨BitVec.toNat_setWidth_of_le (by decide), rfl, rfl, BitVec.toNat_setWidth_of_le (by decide)⟩,
    fun n hn => readReg_absent hn s, rfl, fun g => readReg_rom g s, fun n valid dim hn => ?_, fun n hn => ?_,
    fun n hb hn => if_pos ⟨hb, hn⟩⟩
  · apply readReg_dim_fields
    obtain ⟨g, rfl, rfl, rfl⟩ | ⟨g, rfl, rfl, rfl⟩ | ⟨rfl, rfl, rfl⟩ | ⟨rfl, rfl, rfl⟩ | ⟨rfl, rfl, rfl⟩ |
      ⟨rfl, rfl, rfl⟩ := hn
    · exact readReg_raw g s
    · exact readReg_nrm g s
    all_goals rfl
  · have hallowed : ¬ (s.run.isBusy = true ∧ n ≠ statusNumber) := by
      rintro ⟨hb, hne⟩
      exact hn.elim (fun hidle => Bool.false_ne_true (hidle.symm.trans hb)) hne
    exact if_neg hallowed

/-! ### A command as its elementary steps (R21, R70, R74) -/

/-- The walk stands at an entry or has ended: what the `VFETCH` of an elementary step needs (R125, R127). -/
def WalkStands (s : State) : Prop := walkDone s = true ∨ s.walk.p < lineWidth s.cfg

/-- The loops of R127 keep the position inside the line. -/
theorem advance_p_lt {c : ConfigRegs} (h : 0 < lineWidth c) (w : Walk) : (w.advance c).p < lineWidth c := by
  unfold Walk.advance
  dsimp only
  split
  · assumption
  · split <;> exact h

/-- A walk starts at an entry, or at its end if the lines are empty (R124, R133). -/
theorem walkStands_start (g : Group) (s : State) : WalkStands (initWork (.render g) s) := by
  obtain h | h := Nat.eq_zero_or_pos (lineWidth s.cfg)
  · left
    simp [walkDone, walkStart, h]
  · exact .inr h

/-- After a `VFETCH` the walk stands again. -/
theorem walkStands_vfetch {g : Group} {a : Word16} {s t : State} (hp : s.walk.p < lineWidth s.cfg)
    (h : vfetch g a s = .next t) : WalkStands t := by
  right
  unfold vfetch at h
  split at h
  · obtain rfl := Host.Outcome.next.inj h
    simpa using hp
  · split at h
    · next hs =>
      obtain rfl := Host.Outcome.next.inj h
      obtain ⟨b, w, rfl, -⟩ := drawSamples_change _ _ _ hs
      exact advance_p_lt (Nat.zero_lt_of_lt hp) _
    · cases h
    · cases h

/-- After an elementary step of `RENDER.g` the walk stands again, or it has ended. -/
theorem walkStands_renderMicro {g : Group} {s t : State} (hs : WalkStands s) (h : renderMicro g s = .next t) :
    WalkStands t := by
  unfold renderMicro at h
  split at h
  · next hdone =>
    obtain rfl := Host.Outcome.next.inj h
    exact .inl hdone
  · next hdone =>
    split at h
    · cases h
    · exact walkStands_vfetch (hs.resolve_left hdone) h

/-- A state that command `j` runs in, or has left, with no host transaction waiting. -/
structure RunsAlone (j : Job) (s : State) : Prop where
  inbox : s.inbox = []
  job : s.run.isBusy = true → s.run = .busy j
  stands : ∀ g, j = .render g → WalkStands s

theorem RunsAlone.start {j : Job} {s : State} (h : s.inbox = []) : RunsAlone j (initWork j (begin j s)) where
  inbox := by simpa using h
  job _ := initWork_begin_run j s
  stands g hj := hj ▸ walkStands_start g _

theorem RunsAlone.next {j : Job} {s t : State} (h : RunsAlone j s) (hrun : s.run = .busy j)
    (ht : jobMicro j s = .next t) : RunsAlone j t where
  inbox := by
    obtain ⟨hinbox, -⟩ := (jobMicro_change hrun ht).keeps
    rw [hinbox, h.inbox]
  job := (jobMicro_change hrun ht).run_of_busy
  stands g hj := by
    subst hj
    exact walkStands_renderMicro (h.stands g rfl) ht

theorem RunsAlone.noReset {j : Job} {s : State} (h : RunsAlone j s) : resetPending s = false := by
  rw [resetPending, h.inbox]

/-- At an entry the elementary step of `RENDER.g` is the `VFETCH` that the step of a running walk executes (R125). -/
theorem renderMicro_eq_exec {g : Group} {s : State} {a : Word16} (hrun : s.run = .busy (.render g))
    (hs : WalkStands s) (hdone : walkDone s = false) (hread : readVseq s s.walk.cursor = some a) :
    renderMicro g s = exec (.vfetch a) s := by
  have hk : s.walk.k < lineCount s.cfg := Nat.lt_of_not_le (of_decide_eq_false hdone)
  have hp : s.walk.p < lineWidth s.cfg := hs.resolve_left (by simp [hdone])
  have hentry : atEntry s = true := by simp [atEntry, hk, hp]
  simp only [renderMicro, hdone, hread, exec, execVfetch, hrun, hentry, Bool.false_eq_true, if_false, if_true]

/-- The step of a running command is its elementary step (log 2). -/
theorem RunsAlone.step_eq_jobMicro {j : Job} {s : State} (h : RunsAlone j s) (hrun : s.run = .busy j) :
    step s = jobMicro j s := by
  have hfetch : fetch s = fetchBusy j s := by simp [fetch, h.noReset, hrun]
  cases j with
  | render g =>
    cases hdone : walkDone s with
    | true => simp [step, hfetch, fetchBusy, jobMicro, renderMicro, hdone]
    | false =>
      cases hread : readVseq s s.walk.cursor with
      | none => simp [step, hfetch, fetchBusy, jobMicro, renderMicro, hdone, hread]
      | some a =>
        rw [jobMicro, renderMicro_eq_exec hrun (h.stands g rfl) hdone hread]
        exact step_of_entry h.noReset hrun (Nat.lt_of_not_le (of_decide_eq_false hdone)) hread
  | norm g => simp only [step, hfetch, fetchBusy, jobMicro]
  | compose => simp only [step, hfetch, fetchBusy, jobMicro]

/-- With no host transaction and no command running the block waits (R241). -/
theorem step_waits {s : State} (hinbox : s.inbox = []) (hbusy : s.run.isBusy = false) : step s = .next s := by
  simp only [step, fetch_of_not_busy hbusy, fetchHost, hinbox]

theorem core_run_succ {s t : State} (h : step s = .next t) (n : Nat) :
    Host.Core.run core (n + 1) s = Host.Core.run core n t := by
  simp only [Host.Core.run, show core.step s = .next t from h]

/-- A block that waits is where it was after any number of steps. -/
theorem core_run_waits {s : State} (hinbox : s.inbox = []) (hbusy : s.run.isBusy = false) (n : Nat) :
    Host.Core.run core n s = .next s := by
  induction n with
  | zero => rfl
  | succ n ih => rw [core_run_succ (step_waits hinbox hbusy), ih]

/-- The loop of a command's elementary steps is as many steps of the machine, by induction on the fuel: a command that ends
early leaves a state that waits. -/
theorem RunsAlone.run_of_runWhileBusy {j : Job} (n : Nat) {s t : State} (h : RunsAlone j s)
    (ht : runWhileBusy (jobMicro j) n s = .next t) : Host.Core.run core n s = .next t := by
  induction n generalizing s with
  | zero => exact ht
  | succ n ih =>
    cases hbusy : s.run.isBusy with
    | false =>
      rw [runWhileBusy_stops _ hbusy] at ht
      rw [core_run_waits h.inbox hbusy]
      exact ht
    | true =>
      have hrun := h.job hbusy
      cases hmicro : jobMicro j s with
      | next s' =>
        rw [runWhileBusy_next hbusy hmicro] at ht
        rw [core_run_succ ((h.step_eq_jobMicro hrun).trans hmicro)]
        exact ih (h.next hrun hmicro) ht
      | fault r => simp [runWhileBusy, hbusy, hmicro] at ht
      | refused r => simp [runWhileBusy, hbusy, hmicro] at ht

/-- The start of a command changes nothing that its first check and its number of elements read. -/
theorem jobCheck_begin (j : Job) (s : State) : jobCheck j (begin j s) = jobCheck j s := by
  cases j <;> rfl

theorem elementCount_begin (j : Job) (s : State) : elementCount j (begin j s) = elementCount j s := by
  cases j <;> rfl

/-- Settles O50: the accepted command is the loop of its elementary steps, and the loop is steps of the machine. -/
theorem commandIsItsElementarySteps : Obligations.CommandIsItsElementarySteps := by
  intro j s t _ hinbox hacc hcheck hexec
  rw [exec_job, runCommand_accepted hacc, runBegun_runs ((jobCheck_begin j s).trans hcheck), elementCount_begin] at hexec
  exact (RunsAlone.start hinbox).run_of_runWhileBusy _ hexec

end Sys2Proof.Machine

/-! Proofs of the statements on the memory (spec/20_memory.md): the canonical form of every memory, what the host's loads
and reads do in each run state, the frame of every instruction, and the texts of the vector dump. -/

namespace Sys2Proof.Machine

/-! ### The canonical form of every memory (R60) -/

section Canonical

variable {s t : State}

/-- The canonical form, selection by selection. -/
theorem State.memoriesWf_iff (s : State) :
    s.memoriesWf ↔ Memory.wf s.vseq.mem ∧ (∀ g, ∀ m ∈ (s.rom.get g).chans, Memory.wf m) ∧
      (∀ g, Memory.wf (s.raw.get g).mem) ∧ (∀ g, Memory.wf (s.nrm.get g).mem) ∧ (∀ k, Memory.wf (s.aln.get k).mem) ∧
      Memory.wf s.rgb.mem := by
  rw [← PerGroup.and_iff (P := fun _ b => ∀ m ∈ RomBank.chans b, Memory.wf m),
    ← PerGroup.and_iff (P := fun _ b => Memory.wf (Buffer.mem b)),
    ← PerGroup.and_iff (P := fun _ b => Memory.wf (Buffer.mem b)),
    ← PerAln.and_iff (P := fun b => Memory.wf (Buffer.mem b))]
  simp only [State.memoriesWf, and_assoc]

theorem State.memoriesWf.set_vseq (h : s.memoriesWf) {v : VseqStore} (hv : Memory.wf v.mem) :
    State.memoriesWf { s with vseq := v } := by
  obtain ⟨-, hrest⟩ := h
  exact ⟨hv, hrest⟩

theorem State.memoriesWf.set_rom (h : s.memoriesWf) {g : Group} {b : RomBank} (hb : ∀ m ∈ b.chans, Memory.wf m) :
    State.memoriesWf { s with rom := s.rom.set g b } := by
  rw [State.memoriesWf_iff] at h ⊢
  obtain ⟨hvseq, hrom, hrest⟩ := h
  exact ⟨hvseq, PerGroup.forall_set (P := fun _ b => ∀ m ∈ RomBank.chans b, Memory.wf m) hrom hb, hrest⟩

theorem State.memoriesWf.set_raw (h : s.memoriesWf) {g : Group} {b : Buffer Byte} (hb : Memory.wf b.mem) :
    State.memoriesWf { s with raw := s.raw.set g b } := by
  rw [State.memoriesWf_iff] at h ⊢
  obtain ⟨hvseq, hrom, hraw, hrest⟩ := h
  exact ⟨hvseq, hrom, PerGroup.forall_set (P := fun _ b => Memory.wf (Buffer.mem b)) hraw hb, hrest⟩

theorem State.memoriesWf.set_nrm (h : s.memoriesWf) {g : Group} {b : Buffer Byte} (hb : Memory.wf b.mem) :
    State.memoriesWf { s with nrm := s.nrm.set g b } := by
  rw [State.memoriesWf_iff] at h ⊢
  obtain ⟨hvseq, hrom, hraw, hnrm, hrest⟩ := h
  exact ⟨hvseq, hrom, hraw, PerGroup.forall_set (P := fun _ b => Memory.wf (Buffer.mem b)) hnrm hb, hrest⟩

theorem State.memoriesWf.set_aln (h : s.memoriesWf) {k : AlnSel} {b : Buffer Byte} (hb : Memory.wf b.mem) :
    State.memoriesWf { s with aln := s.aln.set k b } := by
  rw [State.memoriesWf_iff] at h ⊢
  obtain ⟨hvseq, hrom, hraw, hnrm, haln, hrgb⟩ := h
  exact ⟨hvseq, hrom, hraw, hnrm, PerAln.forall_set (P := fun b => Memory.wf (Buffer.mem b)) haln hb, hrgb⟩

theorem State.memoriesWf.set_rgb (h : s.memoriesWf) {b : Buffer Rgb} (hb : Memory.wf b.mem) :
    State.memoriesWf { s with rgb := b } := by
  rw [State.memoriesWf_iff] at h ⊢
  obtain ⟨hvseq, hrom, hraw, hnrm, haln, -⟩ := h
  exact ⟨hvseq, hrom, hraw, hnrm, haln, hb⟩

/-- A command writes its destination alone, and keeps that canonical. -/
theorem JobChange.memoriesWf {j : Job} (h : JobChange j s t) (hs : s.memoriesWf) : t.memoriesWf := by
  obtain ⟨-, -, hraw, hnrm, -, hrgb⟩ := (State.memoriesWf_iff s).mp hs
  cases j with
  | render g =>
    obtain ⟨b, r, fr, w, rfl, hb, -⟩ := h
    exact hs.set_raw (hb (hraw g))
  | norm g =>
    obtain ⟨b, r, fr, n, rfl, hb, -⟩ := h
    exact hs.set_nrm (hb (hnrm g))
  | compose =>
    obtain ⟨b, r, fr, n, rfl, hb, -⟩ := h
    exact hs.set_rgb (hb hrgb)

/-- Loads store lists of elements in their order, and no other transaction touches a memory but to empty it. -/
theorem memoriesWf_transact (h : s.memoriesWf) (t : Transaction) : (transact t s).memoriesWf := by
  cases t with
  | reset =>
    obtain ⟨-, hreset⟩ := resetIsWellFormed
    exact hreset
  | writeReg n v => exact whenIdle_of_both (P := State.memoriesWf) h h
  | readReg n => obtain hr | hr := hostReadReg_cases n s <;> rw [transact, hr] <;> exact h
  | loadVseq entries =>
    exact whenIdle_of_both (P := State.memoriesWf) h (h.set_vseq (Memory.wf_ofList entries))
  | loadRom g chans =>
    refine whenIdle_of_both (P := State.memoriesWf) h (h.set_rom fun m hm => ?_)
    obtain ⟨data, -, rfl⟩ := List.mem_map.mp hm
    exact Memory.wf_ofList data
  | loadRaw g w ht data =>
    exact whenIdle_of_both (P := State.memoriesWf) h (h.set_raw (Memory.wf_ofList data))
  | loadAligned k w ht data =>
    exact whenIdle_of_both (P := State.memoriesWf) h (h.set_aln (Memory.wf_ofList data))
  | readPlane b => obtain hr | ⟨r, hr⟩ := hostReadPlane_cases b s <;> rw [transact, hr] <;> exact h

/-- A step of a running command is an elementary one, whose writes keep the order of the indices. -/
theorem memoriesWf_step_busy (h : s.memoriesWf) {j : Job} (hreset : resetPending s = false) (hrun : s.run = .busy j)
    (hstep : step s = .next t) : t.memoriesWf := by
  obtain ⟨g, a, -, -, hs⟩ | hs := step_busy_cases hreset hrun <;> rw [hs] at hstep
  · obtain ⟨_, -, hchange⟩ := exec_vfetch_change hstep
    exact hchange.memoriesWf h
  · exact (jobMicro_change hrun hstep).memoriesWf h

theorem memoriesWf_step_not_busy (h : s.memoriesWf) (hbusy : s.run.isBusy = false) (hstep : step s = .next t) :
    t.memoriesWf := by
  obtain ⟨-, hs⟩ | ⟨_, _, -, -, hs⟩ | ⟨j, rest, hs, -⟩ | ⟨rest, hs, -⟩ | ⟨u, rest, -, -, hs⟩ :=
    step_not_busy_cases hbusy <;> rw [hs] at hstep
  · obtain rfl := Host.Outcome.next.inj hstep
    exact h
  · exact absurd hstep nofun
  · obtain ⟨r, rfl⟩ | hchange := exec_job_change hstep
    · exact h
    · exact hchange.memoriesWf h
  · obtain rfl := Host.Outcome.next.inj hstep
    exact h
  · obtain rfl := Host.Outcome.next.inj hstep
    exact memoriesWf_transact (s := { s with inbox := rest }) h u

end Canonical

/-- A pending `Reset` is served in every run state (R240). -/
theorem step_of_resetPending {s : State} (h : resetPending s = true) :
    ∃ rest, step s = .next (transact .reset { s with inbox := rest }) := by
  obtain ⟨rest, hin⟩ := (resetPending_cons_iff s).mp h
  exact ⟨rest, by simp only [step, fetch, h, if_true, fetchHost, hin]; rfl⟩

/-- Settles O48: a pending `Reset` empties every memory; else by whether a command runs. -/
theorem stepKeepsMemoriesCanonical : Obligations.StepKeepsMemoriesCanonical := by
  intro s t h hstep
  cases hreset : resetPending s with
  | true =>
    obtain ⟨rest, hs⟩ := step_of_resetPending hreset
    obtain rfl := Host.Outcome.next.inj (hstep.symm.trans hs)
    exact memoriesWf_transact (s := { s with inbox := rest }) h .reset
  | false =>
    cases hrun : s.run with
    | busy j => exact memoriesWf_step_busy h hreset hrun hstep
    | idle => exact memoriesWf_step_not_busy h (by rw [hrun]; rfl) hstep
    | fault => exact memoriesWf_step_not_busy h (by rw [hrun]; rfl) hstep

/-! ### Host transactions outside IDLE (R74, R79, R246) -/

/-- Settles O41: each is a write that only IDLE performs. -/
theorem hostWritesHaveNoEffectOutsideIdle : Obligations.HostWritesHaveNoEffectOutsideIdle := by
  intro s hrun
  exact ⟨fun _ _ _ => whenIdle_of_ne hrun, fun _ => whenIdle_of_ne hrun, fun _ _ => whenIdle_of_ne hrun,
    fun _ _ _ _ => whenIdle_of_ne hrun, fun _ _ _ _ => whenIdle_of_ne hrun⟩

/-- Outside IDLE a transaction that is no `Reset` does nothing or answers the host (R74). -/
theorem transact_of_not_idle {s : State} (hrun : s.run ≠ .idle) {t : Transaction} (ht : t ≠ .reset) :
    transact t s = s ∨ ∃ r, transact t s = deliver r s := by
  cases t with
  | reset => exact absurd rfl ht
  | writeReg n v => exact .inl (whenIdle_of_ne hrun)
  | readReg n => exact (hostReadReg_cases n s).imp_right fun h => ⟨_, h⟩
  | loadVseq entries => exact .inl (whenIdle_of_ne hrun)
  | loadRom g chans => exact .inl (whenIdle_of_ne hrun)
  | loadRaw g w h data => exact .inl (whenIdle_of_ne hrun)
  | loadAligned k w h data => exact .inl (whenIdle_of_ne hrun)
  | readPlane b => exact hostReadPlane_cases b s

/-- Settles O35: in FAULT the step waits, refuses a command, or serves a transaction that does nothing or answers the host. -/
theorem faultIsLeftOnlyByReset : Obligations.FaultIsLeftOnlyByReset := by
  intro s t hrun hreset hstep
  have hne : s.run ≠ .idle := by simp [hrun]
  obtain ⟨-, hs⟩ | ⟨_, _, -, -, hs⟩ | ⟨j, rest, hs, -⟩ | ⟨rest, hs, -⟩ | ⟨u, rest, hin, -, hs⟩ :=
    step_not_busy_cases (by rw [hrun]; rfl : s.run.isBusy = false) <;> rw [hs] at hstep
  · obtain rfl := Host.Outcome.next.inj hstep
    rfl
  · exact absurd hstep nofun
  · rw [exec_job_refused (rejection_of_not_idle (s := { s with inbox := rest }) hne)] at hstep
    obtain rfl := Host.Outcome.next.inj hstep
    rfl
  · obtain rfl := Host.Outcome.next.inj hstep
    rfl
  · obtain rfl := Host.Outcome.next.inj hstep
    have hu : u ≠ .reset := by
      rintro rfl
      simp [resetPending, hin] at hreset
    obtain h | ⟨r, h⟩ := transact_of_not_idle (s := { s with inbox := rest }) hne hu
    · rw [h]
    · rw [h]
      rfl

/-- Settles O45: what is fetched of a transaction that is no command issue is the transaction itself or no move. -/
theorem stepServesTheHostsTransaction : Obligations.StepServesTheHostsTransaction := by
  intro s t rest hin hbusy
  have hfetch : fetch s = fetchTransaction t { s with inbox := rest } := by
    rw [fetch_of_not_busy hbusy, fetchHost, hin]
  obtain ⟨hwf, h⟩ | ⟨hwf, v, rfl, -⟩ | ⟨hwf, -, h⟩ := fetchTransaction_cases t { s with inbox := rest }
  · exact ⟨fun hwf' _ => by simp [hwf] at hwf', fun _ => by rw [step, hfetch, h]⟩
  · exact ⟨fun _ hne => absurd rfl (hne v), fun hwf' => by simp [hwf] at hwf'⟩
  · exact ⟨fun _ _ => by rw [step, hfetch, h], fun hwf' => by simp [hwf] at hwf'⟩

/-! ### Loads in IDLE (R75 to R78) -/

/-- Every index of the store just loaded reads its entry, and none beyond it holds one (R76). -/
theorem readVseq_loaded {s : State} {entries : List Word16} (hlen : entries.length < 2 ^ 32) (i : Nat) :
    readVseq
      { s with vseq := { valid := true, len := BitVec.ofNat 32 entries.length, mem := Memory.ofList entries } } i
      = entries[i]? := by
  have hn : (BitVec.ofNat 32 entries.length).toNat = entries.length := by
    rw [BitVec.toNat_ofNat, Nat.mod_eq_of_lt hlen]
  simp only [readVseq, hn, Memory.read_ofList, true_and]
  split
  · rfl
  · next hi => exact (List.getElem?_eq_none (Nat.le_of_not_lt hi)).symm

/-- Settles O36: the store is replaced by one that holds the list. -/
theorem loadVseqStoresTheEntries : Obligations.LoadVseqStoresTheEntries := by
  intro s entries hrun hwf
  have hlen : entries.length < 2 ^ 32 := of_decide_eq_true hwf
  have ht : transact (.loadVseq entries) s
      = { s with vseq := { valid := true, len := BitVec.ofNat 32 entries.length, mem := Memory.ofList entries } } :=
    whenIdle_of_idle hrun
  rw [ht]
  exact ⟨rfl, by rw [BitVec.toNat_ofNat, Nat.mod_eq_of_lt hlen], VseqStore.inv_loaded hlen, readVseq_loaded hlen, rfl⟩

/-- Channel lists of the shape of R77 have the length that `ROM_LEN_g` takes. -/
theorem length_of_romShapeOk {g : Group} {chans : List (List Byte)} (hok : romShapeOk g chans = true)
    {data : List Byte} (hdata : data ∈ chans) :
    (BitVec.ofNat 32 (chans.headD []).length).toNat = data.length := by
  simp only [romShapeOk, Bool.and_eq_true, decide_eq_true_eq, List.all_eq_true] at hok
  obtain ⟨⟨⟨-, hsame⟩, -⟩, hlt⟩ := hok
  rw [BitVec.toNat_ofNat, Nat.mod_eq_of_lt hlt, hsame data hdata]

/-- Settles O37: the bank is replaced by one whose channels hold the lists. -/
theorem loadRomStoresTheChannels : Obligations.LoadRomStoresTheChannels := by
  intro s g chans hrun hwf
  have ht : transact (.loadRom g chans) s = { s with
      rom := s.rom.set g
        { valid := true, len := BitVec.ofNat 32 (chans.headD []).length, chans := chans.map Memory.ofList } } :=
    whenIdle_of_idle hrun
  simp only [ht, PerGroup.get_set_same]
  refine ⟨trivial, RomBank.inv_loaded hwf, fun c data hc => ?_, trivial⟩
  have hlen := length_of_romShapeOk hwf (List.mem_of_getElem? hc)
  refine ⟨hlen, fun a => ?_⟩
  simp only [readRom, romChan, PerGroup.get_set_same, hlen, List.getD_eq_getElem?_getD, List.getElem?_map, hc,
    Option.map_some, Option.getD_some, Memory.read_ofList, true_and]
  split
  · rfl
  · next ha => exact (List.getElem?_eq_none (Nat.le_of_not_lt ha)).symm

/-- The dimensions of a plane of the shape of R75 fit their fields. -/
theorem planeShapeOk_iff (w h : Nat) (data : List Byte) :
    planeShapeOk w h data = true ↔ w < 2 ^ 16 ∧ h < 2 ^ 16 ∧ data.length = w * h := by
  simp only [planeShapeOk, Bool.and_eq_true, decide_eq_true_eq, and_assoc]

/-- What a buffer holds once a plane is loaded into it (R75, R78). -/
theorem Buffer.loaded_holds {w h : Nat} {data : List Byte} (hok : planeShapeOk w h data = true) :
    (Buffer.loaded w h data).valid = true ∧ dimWidth (Buffer.loaded w h data).dim = w ∧
      dimHeight (Buffer.loaded w h data).dim = h ∧ (Buffer.loaded w h data).Inv ∧
      ∀ n, (Buffer.loaded w h data).read n = data[n]? := by
  obtain ⟨hw, hh, -⟩ := (planeShapeOk_iff w h data).mp hok
  refine ⟨rfl, dimWidth_packDim hw, dimHeight_packDim hh, Buffer.inv_loaded hok, fun n => ?_⟩
  rw [← Buffer.getElem?_contents (Buffer.inv_loaded hok) rfl, Buffer.loaded, Memory.contents_ofList]

theorem transact_loadRaw {s : State} (hrun : s.run = .idle) (g : Group) (w h : Nat) (data : List Byte) :
    transact (.loadRaw g w h data) s = { s with raw := s.raw.set g (Buffer.loaded w h data) } :=
  whenIdle_of_idle hrun

theorem transact_loadAligned {s : State} (hrun : s.run = .idle) (k : AlnSel) (w h : Nat) (data : List Byte) :
    transact (.loadAligned k w h data) s = { s with aln := s.aln.set k (Buffer.loaded w h data) } :=
  whenIdle_of_idle hrun

/-- Settles O38: one buffer is replaced by the loaded one. -/
theorem loadPlaneStoresThePlane : Obligations.LoadPlaneStoresThePlane := by
  intro s w h data hrun hok
  obtain ⟨hvalid, hw, hh, hinv, hread⟩ := Buffer.loaded_holds hok
  refine ⟨fun g => ?_, fun k => ?_⟩
  · simp only [transact_loadRaw hrun, PerGroup.get_set_same]
    exact ⟨hvalid, hw, hh, hinv, hread, trivial⟩
  · simp only [transact_loadAligned hrun, PerAln.get_set_same]
    exact ⟨hvalid, hw, hh, hinv, hread, trivial⟩

/-! ### Reads of a plane (R63, R79) -/

/-- A plane read that has a reply is answered while no command runs. -/
theorem transact_readPlane {s : State} (hbusy : s.run.isBusy = false) {b : ReadSel} {r : Reply}
    (hr : planeReply b s = some r) : transact (.readPlane b) s = { s with outbox := s.outbox ++ [r] } := by
  simp only [transact, hostReadPlane, hbusy, hr, Bool.false_eq_true, if_false, deliver]

/-- A plane read that has no reply changes nothing. -/
theorem transact_readPlane_none {s : State} {b : ReadSel} (hr : planeReply b s = none) :
    transact (.readPlane b) s = s := by
  simp only [transact, hostReadPlane, hr, ite_self]

theorem planeReply_raw {s : State} {g : Group} (hv : (s.raw.get g).valid = true) :
    planeReply (.raw g) s = some (.plane (.raw g) (dimWidth (s.raw.get g).dim) (dimHeight (s.raw.get g).dim)
      (Memory.contents (s.raw.get g).mem)) := if_pos hv

theorem planeReply_nrm {s : State} {g : Group} (hv : (s.nrm.get g).valid = true) :
    planeReply (.nrm g) s = some (.plane (.nrm g) (dimWidth (s.nrm.get g).dim) (dimHeight (s.nrm.get g).dim)
      (Memory.contents (s.nrm.get g).mem)) := if_pos hv

theorem planeReply_rgb {s : State} (hv : s.rgb.valid = true) :
    planeReply .rgb s = some (.image (dimWidth s.rgb.dim) (dimHeight s.rgb.dim) (Memory.contents s.rgb.mem)) :=
  if_pos hv

/-- Settles O39: the reply holds the contents of the buffer, which are its reads in order. -/
theorem readPlaneReturnsWhatWasLoaded : Obligations.ReadPlaneReturnsWhatWasLoaded := by
  refine ⟨fun s hbufs hrun => ?_, fun s g w h data hrun hok => ?_⟩
  · have hbusy : s.run.isBusy = false := (isBusy_false_iff s.run).mpr hrun
    obtain ⟨-, -, hraw, hnrm, -, hrgb⟩ := (State.buffersInv_iff s).mp hbufs
    refine ⟨fun g hv => ?_, fun g hv => ?_, fun hv => ?_⟩
    · exact ⟨_, Buffer.getElem?_contents (hraw g) hv, Memory.length_contents ((hraw g).1 hv),
        transact_readPlane hbusy (planeReply_raw hv)⟩
    · exact ⟨_, Buffer.getElem?_contents (hnrm g) hv, Memory.length_contents ((hnrm g).1 hv),
        transact_readPlane hbusy (planeReply_nrm hv)⟩
    · exact ⟨_, Buffer.getElem?_contents hrgb hv, Memory.length_contents (hrgb.1 hv),
        transact_readPlane hbusy (planeReply_rgb hv)⟩
  · obtain ⟨hvalid, hw, hh, -⟩ := Buffer.loaded_holds hok
    rw [transact_loadRaw hrun]
    refine transact_readPlane (by simp [hrun]) ?_
    rw [planeReply_raw] <;> rw [PerGroup.get_set_same]
    · rw [hw, hh, Buffer.loaded, Memory.contents_ofList]
    · exact hvalid

/-- Settles O40: such a read has no reply. -/
theorem readPlaneOfAnInvalidBufferReturnsNothing : Obligations.ReadPlaneOfAnInvalidBufferReturnsNothing := by
  intro s g
  refine ⟨fun hv => ?_, fun hv => ?_, fun hv => ?_⟩ <;>
    exact transact_readPlane_none (if_neg (Bool.eq_false_iff.mp hv))

/-! ### Well-formed states hold every value that is read (R64, R216) -/

/-- An issued command of a well-formed state is refused, faults or completes. -/
theorem exec_job_answers {s : State} (h : s.Inv) (j : Job) : ∃ t, exec (jobInstr j) s = .next t := by
  obtain ⟨-, hbufs⟩ := h
  obtain ⟨hvseq, hrom, hraw, -⟩ := (State.buffersInv_iff s).mp hbufs
  have ⟨_, _, _, _, haln, _⟩ := hbufs
  cases hacc : rejection j s with
  | some r => exact ⟨_, exec_job_refused hacc⟩
  | none =>
    cases j with
    | render g =>
      rw [exec_render]
      obtain ⟨-, ht⟩ | ⟨-, q, a, -, -, -, -, ht⟩ | ⟨-, -, m, -, ht⟩ := render_accepted_cases hacc hvseq (hrom g) <;>
        exact ⟨_, ht⟩
    | norm g =>
      rw [exec_norm]
      obtain ⟨m, -, -, ht⟩ | ⟨q, v, -, -, -, -, ht⟩ := norm_accepted_cases hacc (hraw g) <;> exact ⟨_, ht⟩
    | compose =>
      cases hcheck : composeCheck s with
      | some fault => exact ⟨_, compose_faults hacc hcheck⟩
      | none =>
        obtain ⟨m, -, -, ht⟩ := compose_completes hacc hcheck haln
        exact ⟨_, ht⟩

/-- Settles O49: no command runs, and an issued one answers a next state. -/
theorem wellFormedStatesNeverReadAMissingValue : Obligations.WellFormedStatesNeverReadAMissingValue := by
  intro s h
  have ⟨⟨hbusy, _⟩, _⟩ := h
  obtain ⟨-, hs⟩ | ⟨_, _, -, -, hs⟩ | ⟨j, rest, hs, -⟩ | ⟨rest, hs, -⟩ | ⟨u, rest, -, -, hs⟩ :=
    step_not_busy_cases hbusy
  · exact .inl ⟨_, hs⟩
  · exact .inr hs
  · rw [hs]
    exact .inl (exec_job_answers (s := { s with inbox := rest }) h j)
  · exact .inl ⟨_, hs⟩
  · exact .inl ⟨_, hs⟩

/-! ### The frame of an instruction (R62) -/

/-- But for its destination, a command changes the run state, the fault record and its working registers alone. -/
theorem JobChange.clearDest_eq {j : Job} {s t : State} (h : JobChange j s t) :
    clearDest j t = { clearDest j s with
      run := t.run
      faultRec := t.faultRec
      walk := t.walk
      normIdx := t.normIdx
      compIdx := t.compIdx } := by
  cases j with
  | render g =>
    obtain ⟨b, r, fr, w, rfl, -⟩ := h
    simp only [clearDest, PerGroup.set_set]
  | norm g =>
    obtain ⟨b, r, fr, n, rfl, -⟩ := h
    simp only [clearDest, PerGroup.set_set]
  | compose =>
    obtain ⟨b, r, fr, n, rfl, -⟩ := h
    rfl

/-- Settles O51: an instruction is refused, with its record alone, or changes what its job may change. -/
theorem instructionsChangeOnlyTheirDestination : Obligations.InstructionsChangeOnlyTheirDestination := by
  refine ⟨fun j s t ht => ?_, fun g a s t hrun ht => ?_⟩
  · obtain ⟨r, rfl⟩ | hchange := exec_job_change ht
    · cases j <;> rfl
    · obtain ⟨-, -, hrefused, hreason, -⟩ := hchange.keeps
      rw [hchange.clearDest_eq, hrefused, hreason, ← clearDest_refused j s, ← clearDest_refuseReason j s]
  · obtain ⟨g', hrun', b, r, fr, w, rfl, -⟩ := exec_vfetch_change ht
    obtain rfl : g = g' := by simpa using hrun.symm.trans hrun'
    simp only [clearDest, PerGroup.set_set]

/-! ### Groups in either order (R71) -/

/-- Replacing the selections of two groups, in either order. -/
theorem PerGroup.set_comm {α : Type} (x : PerGroup α) {g h : Group} (hne : g ≠ h) (v w : α) :
    (x.set g v).set h w = (x.set h w).set g v := by
  cases g <;> cases h <;> simp [PerGroup.set] at hne ⊢

/-- A command after which `REFUSED` is 0 was accepted, and found it 0 (R215). -/
theorem accepted_of_not_refused {j : Job} {s t : State} (ht : exec (jobInstr j) s = .next t)
    (hrefused : t.refused = false) : rejection j s = none ∧ s.refused = false := by
  cases hacc : rejection j s with
  | some r =>
    obtain rfl := Host.Outcome.next.inj (ht.symm.trans (exec_job_refused hacc))
    cases hrefused
  | none =>
    obtain ⟨r, rfl⟩ | hchange := exec_job_change ht
    · cases hrefused
    · obtain ⟨-, -, hsame, -⟩ := hchange.keeps
      exact ⟨rfl, hsame ▸ hrefused⟩

/-- Of two commands that end well, the first ended well (R215, R216). -/
theorem endedWell_of_next {j : Job} {s t : State} (ht : exec (jobInstr j) s = .next t) (hend : t.endedWell) :
    s.endedWell := by
  obtain ⟨hacc, hrefused⟩ := accepted_of_not_refused ht hend.2
  exact ⟨((rejection_eq_none_iff j s).mp hacc).1, hrefused⟩

/-- A `RENDER.g` that ends well has drawn its whole plane. -/
theorem render_endedWell {g : Group} {s t : State} (h : s.Inv) (ht : exec (jobInstr (.render g)) s = .next t)
    (hend : t.endedWell) : ∃ m, drawnUpTo s g m (vseqRequired s.cfg) ∧ t = renderDone s g m := by
  obtain ⟨-, hbufs⟩ := h
  obtain ⟨hvseq, hrom, -⟩ := (State.buffersInv_iff s).mp hbufs
  obtain ⟨hidle, hrefused⟩ := hend
  obtain ⟨hacc, -⟩ := accepted_of_not_refused ht hrefused
  rw [exec_render] at ht
  obtain ⟨-, hr⟩ | ⟨-, q, a, -, -, -, -, hr⟩ | ⟨-, -, m, hm, hr⟩ := render_accepted_cases hacc hvseq (hrom g) <;>
    obtain rfl := Host.Outcome.next.inj (ht.symm.trans hr)
  · cases hidle
  · cases hidle
  · exact ⟨m, hm, rfl⟩

/-- What the samples drawn are is fixed by the stores and the geometry. -/
theorem drawnUpTo_unique {s : State} {g : Group} {m m' : Memory Byte} {n : Nat} (h : drawnUpTo s g m n)
    (h' : drawnUpTo s g m' n) : m = m' := by
  obtain ⟨hfull, hval⟩ := h
  obtain ⟨hfull', hval'⟩ := h'
  exact Memory.ext_of_full hfull hfull' fun i hi => (hval i hi).trans (hval' i hi).symm

/-- `m` holds the whole of `RAW[g]` through the transform (R163). -/
def NormalizedPlane (s : State) (g : Group) (m : Memory Byte) : Prop :=
  Memory.full m (dimSize (s.raw.get g).dim) ∧
    ∀ n, n < dimSize (s.raw.get g).dim → ∃ w, pixelMapsTo s g n w ∧ Memory.read m n = some w

/-- A `NORM.g` that ends well has normalized its whole plane. -/
theorem norm_endedWell {g : Group} {s t : State} (h : s.Inv) (ht : exec (jobInstr (.norm g)) s = .next t)
    (hend : t.endedWell) : ∃ m, NormalizedPlane s g m ∧ t = normDone s g m := by
  obtain ⟨-, hbufs⟩ := h
  obtain ⟨-, -, hraw, -⟩ := (State.buffersInv_iff s).mp hbufs
  obtain ⟨hidle, hrefused⟩ := hend
  obtain ⟨hacc, -⟩ := accepted_of_not_refused ht hrefused
  rw [exec_norm] at ht
  obtain ⟨m, hfull, hval, hr⟩ | ⟨q, v, -, -, -, -, hr⟩ := norm_accepted_cases hacc (hraw g) <;>
    obtain rfl := Host.Outcome.next.inj (ht.symm.trans hr)
  · exact ⟨m, ⟨hfull, hval⟩, rfl⟩
  · cases hidle

/-- The transform maps a pixel to one value. -/
theorem pixelMapsTo_unique {s : State} {g : Group} {n : Nat} {w w' : Byte} (h : pixelMapsTo s g n w)
    (h' : pixelMapsTo s g n w') : w = w' := by
  obtain ⟨v, hread, hw⟩ := h
  obtain ⟨v', hread', hw'⟩ := h'
  obtain rfl := Option.some.inj (hread.symm.trans hread')
  exact Option.some.inj (hw.symm.trans hw')

/-- A normalized plane is fixed by its source and the level registers. -/
theorem NormalizedPlane.unique {s : State} {g : Group} {m m' : Memory Byte} (h : NormalizedPlane s g m)
    (h' : NormalizedPlane s g m') : m = m' := by
  obtain ⟨hfull, hval⟩ := h
  obtain ⟨hfull', hval'⟩ := h'
  refine Memory.ext_of_full hfull hfull' fun n hn => ?_
  obtain ⟨w, hw, hread⟩ := hval n hn
  obtain ⟨w', hw', hread'⟩ := hval' n hn
  rw [hread, hread', pixelMapsTo_unique hw hw']

/-- Settles O52: each command ends with the plane that its own sources fix, which the other does not write. -/
theorem groupsMayBeProcessedInEitherOrder : Obligations.GroupsMayBeProcessedInEitherOrder := by
  intro unit g h s t1 t2 u1 u2 hunit hne hs _ ht1 ht2 hu1 hu2 htend huend
  have hti := inv_of_exec_job hs ht1
  have hui := inv_of_exec_job hs hu1
  have htw := endedWell_of_next ht2 htend
  have huw := endedWell_of_next hu2 huend
  obtain rfl | rfl := hunit
  · obtain ⟨mg, hmg, rfl⟩ := render_endedWell hs ht1 htw
    obtain ⟨mh, hmh, rfl⟩ := render_endedWell hti ht2 htend
    obtain ⟨nh, hnh, rfl⟩ := render_endedWell hs hu1 huw
    obtain ⟨ng, hng, rfl⟩ := render_endedWell hui hu2 huend
    obtain rfl : mg = ng := drawnUpTo_unique hmg hng
    obtain rfl : mh = nh := drawnUpTo_unique hmh hnh
    simp only [renderDone, State.visible, PerGroup.set_comm s.raw hne]
  · obtain ⟨mg, hmg, rfl⟩ := norm_endedWell hs ht1 htw
    obtain ⟨mh, hmh, rfl⟩ := norm_endedWell hti ht2 htend
    obtain ⟨nh, hnh, rfl⟩ := norm_endedWell hs hu1 huw
    obtain ⟨ng, hng, rfl⟩ := norm_endedWell hui hu2 huend
    obtain rfl : mg = ng := NormalizedPlane.unique hmg hng
    obtain rfl : mh = nh := NormalizedPlane.unique hmh hnh
    simp only [normDone, State.visible, PerGroup.set_comm s.nrm hne]

/-! ### Texts (R82, R83, R108) -/

/-- Outside a header a line without a token adds nothing (R82). -/
theorem dumpEntries_blank {b e l : List Char} (h : firstToken l = []) (n : Nat) (ls : List (List Char)) :
    dumpEntries b e false n (l :: ls) = dumpEntries b e false (n + 1) ls := by
  rw [dumpEntries, if_pos h]

/-- Outside a header a line whose first token is a value adds it before those of the later lines (R82). -/
theorem dumpEntries_value {b e l : List Char} {v : Word16} {vs : List Word16} {n : Nat} {ls : List (List Char)}
    (htoken : firstToken l ≠ []) (hmark : firstToken l ≠ b) (hv : parseToken (firstToken l) = some v)
    (hls : dumpEntries b e false (n + 1) ls = .ok vs) : dumpEntries b e false n (l :: ls) = .ok (v :: vs) := by
  rw [dumpEntries, if_neg htoken, if_neg hmark, hv]
  simp only [hls]

/-- A line's first token, parsed, if it has one. -/
def tokenValue (t : List Char) : Option (Option Word16) := if t = [] then none else some (parseToken t)

/-- The lines of a text without marker lines give the values of their first tokens, by induction on the lines. -/
theorem dumpEntries_of_values {b e : List Char} (lines : List (List Char)) (n : Nat) (values : List Word16)
    (hmark : ∀ l ∈ lines, firstToken l ≠ b)
    (hvalues : (lines.map firstToken).filterMap tokenValue = values.map some) :
    dumpEntries b e false n lines = .ok values := by
  induction lines generalizing n values with
  | nil =>
    obtain rfl : values = [] := by simpa using hvalues.symm
    rfl
  | cons l ls ih =>
    obtain ⟨hl, hls⟩ := List.forall_mem_cons.mp hmark
    rw [List.map_cons] at hvalues
    by_cases htoken : firstToken l = []
    · have hnone : tokenValue (firstToken l) = none := if_pos htoken
      rw [List.filterMap_cons_none hnone] at hvalues
      rw [dumpEntries_blank htoken]
      exact ih (n + 1) values hls hvalues
    · have hsome : tokenValue (firstToken l) = some (parseToken (firstToken l)) := if_neg htoken
      rw [List.filterMap_cons_some hsome] at hvalues
      obtain ⟨v, vs, rfl, hv, hvs⟩ := List.map_eq_cons_iff.mp hvalues.symm
      exact dumpEntries_value htoken hl hv.symm (ih (n + 1) vs hls hvs.symm)

/-- Settles O53: the reader starts outside a header and loads what the lines give. -/
theorem dumpReaderLoadsTheTokensInOrder : Obligations.DumpReaderLoadsTheTokensInOrder := by
  intro beginMark endMark lines values hmark hvalues
  rw [readDump, dumpEntries_of_values lines 0 values hmark hvalues]

/-- A written digit reads back, and is no whitespace. -/
theorem hexChar_reads_back (d : BitVec 4) :
    hexDigit (hexChar d) = some d.toNat ∧ (hexChar d).isWhitespace = false := by
  revert d
  decide

theorem hexValue_hexChar (acc : Nat) (d : BitVec 4) (cs : List Char) :
    hexValue acc (hexChar d :: cs) = hexValue (16 * acc + d.toNat) cs := by
  rw [hexValue, (hexChar_reads_back d).1]

/-- The four digits of an entry, read one after the other, make up the entry. -/
theorem hexValue_vectorText (a : Word16) : hexValue 0 (vectorText a) = some a.toNat := by
  have hdigits : 16 * (16 * (16 * (16 * 0 + (a.extractLsb' 12 4).toNat) + (a.extractLsb' 8 4).toNat)
      + (a.extractLsb' 4 4).toNat) + (a.extractLsb' 0 4).toNat = a.toNat := by
    have := a.isLt
    simp only [BitVec.extractLsb'_toNat, Nat.shiftRight_eq_div_pow]
    omega
  rw [vectorText, hexValue_hexChar, hexValue_hexChar, hexValue_hexChar, hexValue_hexChar, hexValue, hdigits]

/-- Settles O54: the digits make up the entry, and none of them ends the token. -/
theorem fourDigitEntriesReadBack : Obligations.FourDigitEntriesReadBack := by
  intro a
  have hle : a.toNat ≤ 0xFFFF := Nat.le_of_lt_succ a.isLt
  refine ⟨?_, ?_⟩
  · simp only [parseToken, hexValue_vectorText, if_pos hle, BitVec.ofNat_toNat, BitVec.setWidth_eq]
  · have hdigit (d : BitVec 4) : (hexChar d).isWhitespace = false := (hexChar_reads_back d).2
    simp [firstToken, vectorText, hdigit]

end Sys2Proof.Machine

/-! Proofs of the statements on the encoding (spec/30_encoding.md): a command word and its three fields determine each other,
so the decoder and the encoder undo each other in both code spaces. -/

namespace Sys2Proof.Machine

/-! ### The fields of a command word (R91) -/

@[simp] theorem fieldOp_append (op : BitVec 4) (z sel : BitVec 2) : fieldOp (op ++ z ++ sel) = op := by
  revert op z sel
  decide

@[simp] theorem fieldZ_append (op : BitVec 4) (z sel : BitVec 2) : fieldZ (op ++ z ++ sel) = z := by
  revert op z sel
  decide

@[simp] theorem fieldSel_append (op : BitVec 4) (z sel : BitVec 2) : fieldSel (op ++ z ++ sel) = sel :=
  BitVec.extractLsb'_append_eq_right

/-- The three fields make up the word. -/
theorem append_fields (w : Byte) : fieldOp w ++ fieldZ w ++ fieldSel w = w := by
  revert w
  decide

/-- A word with `Z = 0` is the command word of its `OP` and its `SEL`. -/
theorem commandWord_fields {w : Byte} (hz : fieldZ w = 0#2) : commandWord (fieldOp w) (fieldSel w) = .cw8 w := by
  rw [commandWord, ← hz, append_fields]

/-! ### The decoder after the encoder (R92 to R100) -/

/-- On a command word built from its fields the decoder tests the fields themselves. -/
theorem decode_commandWord (op : BitVec 4) (sel : BitVec 2) :
    decode (commandWord op sel) =
      if op = 0#4 ∨ 3#4 < op then .error .reservedOp
      else if op = 1#4 then decodeRender sel
      else if op = 2#4 then decodeNorm sel
      else decodeCompose sel := by
  simp only [decode, commandWord, decodeCommand, fieldOp_append, fieldZ_append, fieldSel_append, ne_eq, not_true_eq_false,
    if_false]

/-- An instruction's word decodes to the instruction: `OP` selects the command's decoder, which reads the group off `SEL`. -/
theorem decode_encode (i : Instr) : decode (encode i) = .ok i := by
  cases i with
  | renderY => exact decode_commandWord 1#4 0#2
  | renderRY => exact decode_commandWord 1#4 1#2
  | renderBY => exact decode_commandWord 1#4 2#2
  | normY => exact decode_commandWord 2#4 0#2
  | normRY => exact decode_commandWord 2#4 1#2
  | normBY => exact decode_commandWord 2#4 2#2
  | compose => exact decode_commandWord 3#4 0#2
  | vfetch a => rfl

/-- Settles O3: decoding undoes encoding for every instruction. -/
theorem decodeOfEncodeIsTheInstruction : Obligations.DecodeOfEncodeIsTheInstruction :=
  fun i _ => decode_encode i

/-- Settles O1: each word of the table is the encoding of its instruction. -/
theorem tableWordsDecodeToTheirInstructions : Obligations.TableWordsDecodeToTheirInstructions :=
  ⟨decode_encode .renderY, decode_encode .renderRY, decode_encode .renderBY, decode_encode .normY,
    decode_encode .normRY, decode_encode .normBY, decode_encode .compose, fun w => decode_encode (.vfetch w)⟩

/-! ### The encoder after the decoder (R106) -/

theorem encode_of_decodeRender {sel : BitVec 2} {i : Instr} (h : decodeRender sel = .ok i) :
    encode i = commandWord 1#4 sel := by
  unfold decodeRender at h
  split_ifs at h <;> cases h <;> subst sel <;> rfl

theorem encode_of_decodeNorm {sel : BitVec 2} {i : Instr} (h : decodeNorm sel = .ok i) :
    encode i = commandWord 2#4 sel := by
  unfold decodeNorm at h
  split_ifs at h <;> cases h <;> subst sel <;> rfl

theorem encode_of_decodeCompose {sel : BitVec 2} {i : Instr} (h : decodeCompose sel = .ok i) :
    encode i = commandWord 3#4 sel := by
  unfold decodeCompose at h
  split_ifs at h with hsel
  cases h
  rw [hsel]
  rfl

/-- What a word that decodes looks like: `Z` is zero, and `OP` says which decoder has accepted `SEL`. -/
theorem decodeCommand_fields {w : Byte} {i : Instr} (h : decodeCommand w = .ok i) :
    fieldZ w = 0#2 ∧
      (fieldOp w = 1#4 ∧ decodeRender (fieldSel w) = .ok i ∨ fieldOp w = 2#4 ∧ decodeNorm (fieldSel w) = .ok i ∨
        fieldOp w = 3#4 ∧ decodeCompose (fieldSel w) = .ok i) := by
  unfold decodeCommand at h
  split_ifs at h with hop hz hrender hnorm
  · exact ⟨not_not.mp hz, .inl ⟨hrender, h⟩⟩
  · exact ⟨not_not.mp hz, .inr (.inl ⟨hnorm, h⟩)⟩
  · have hcompose : fieldOp w = 3#4 := by bv_omega
    exact ⟨not_not.mp hz, .inr (.inr ⟨hcompose, h⟩)⟩

/-- A word that decodes is the encoding of its instruction. -/
theorem encode_of_decodeCommand {w : Byte} {i : Instr} (h : decodeCommand w = .ok i) : encode i = .cw8 w := by
  obtain ⟨hz, hfields⟩ := decodeCommand_fields h
  rw [← commandWord_fields hz]
  obtain ⟨hop, hsel⟩ | ⟨hop, hsel⟩ | ⟨hop, hsel⟩ := hfields <;> rw [hop]
  · exact encode_of_decodeRender hsel
  · exact encode_of_decodeNorm hsel
  · exact encode_of_decodeCompose hsel

/-- Each of the seven words is a command, by the opcode table. -/
theorem decode_of_mem_legalWords : ∀ w ∈ legalWords, ∃ i, decode (.cw8 w) = .ok i := by
  obtain ⟨hrenderY, hrenderRY, hrenderBY, hnormY, hnormRY, hnormBY, hcompose, -⟩ := tableWordsDecodeToTheirInstructions
  simp only [legalWords, List.forall_mem_cons]
  exact ⟨⟨_, hrenderY⟩, ⟨_, hrenderRY⟩, ⟨_, hrenderBY⟩, ⟨_, hnormY⟩, ⟨_, hnormRY⟩, ⟨_, hnormBY⟩, ⟨_, hcompose⟩, nofun⟩

/-- Settles O2: the words that decode are the seven of the table, and each is the encoding of its instruction. -/
theorem exactlySevenCommandWordsAreLegal : Obligations.ExactlySevenCommandWordsAreLegal :=
  ⟨fun w => ⟨fun ⟨_, h⟩ => mem_legalWords_of_decode h, decode_of_mem_legalWords w⟩,
    fun _ _ h => encode_of_decodeCommand h⟩

end Sys2Proof.Machine

/-! Proofs of the statements on the field walker (spec/40_field_walker.md): one `VFETCH` at an entry of a walk and outside of
one, the plane that a completed `RENDER.g` has drawn, its two faults, and the entries it never reads. -/

namespace Sys2Proof.Machine

/-! ### What a fault of `RENDER.g` leaves behind (R123, R126, R206) -/

@[simp] theorem renderFaulted_raw_get (s : State) (g : Group) (k : FaultKind) (i v : Nat) (w : Walk) :
    (renderFaulted s g k i v w).raw.get g = Buffer.empty := PerGroup.get_set_same ..

/-- The destination of a faulted `RENDER.g` holds no value (R206). -/
theorem renderFaulted_dest (s : State) (g : Group) (k : FaultKind) (i v : Nat) (w : Walk) :
    ((renderFaulted s g k i v w).raw.get g).valid = false ∧ ((renderFaulted s g k i v w).raw.get g).dim = 0#32 := by
  rw [renderFaulted_raw_get]
  exact ⟨rfl, rfl⟩

/-- A faulted `RENDER.g` changes its destination, `STATE`, the fault record and the working registers alone. -/
theorem renderFaulted_frame (s : State) (g : Group) (k : FaultKind) (i v : Nat) (w : Walk) :
    renderFaulted s g k i v w = { s with
      raw := s.raw.set g ((renderFaulted s g k i v w).raw.get g)
      run := .fault
      faultRec := (renderFaulted s g k i v w).faultRec
      walk := w } := by
  rw [renderFaulted_raw_get, renderFaulted]

/-- The fault record holds an index and a value that fit its registers (R32). -/
theorem renderFaulted_record {i v : Nat} (hi : i < 2 ^ 32) (hv : v < 2 ^ 32) (s : State) (g : Group) (k : FaultKind)
    (w : Walk) :
    (renderFaulted s g k i v w).faultRec.index.toNat = i ∧ (renderFaulted s g k i v w).faultRec.value.toNat = v :=
  ⟨Nat.mod_eq_of_lt hi, Nat.mod_eq_of_lt hv⟩

/-- A fault raised while `RENDER.g` runs leaves the working registers where they stand (R206). -/
theorem raise_of_render {s : State} {g : Group} (hrun : s.run = .busy (.render g)) (k : FaultKind) (i v : Nat) :
    raise k i v s = renderFaulted s g k i v s.walk := by
  simp only [raise, dropDest, hrun, clearDest, renderFaulted]

/-! ### One `VFETCH` (R125, R126, R130) -/

/-- At an entry of a running walk `VFETCH` is its walk step. -/
theorem exec_vfetch_at_entry {s : State} {g : Group} (hrun : s.run = .busy (.render g)) (hk : s.walk.k < lineCount s.cfg)
    (hp : s.walk.p < lineWidth s.cfg) (a : Word16) : exec (.vfetch a) s = vfetch g a s := by
  have hentry : atEntry s = true := by simp [atEntry, hk, hp]
  simp only [exec, execVfetch, hrun, hentry, if_true]

/-- Settles O20: every run state but that of a walk at an entry is refused. -/
theorem vfetchOutsideAWalkHasNoMove : Obligations.VfetchOutsideAWalkHasNoMove := by
  intro s a houtside
  cases hrun : s.run with
  | idle => simp only [exec, execVfetch, hrun]
  | fault => simp only [exec, execVfetch, hrun]
  | busy j =>
    cases j with
    | norm g => simp only [exec, execVfetch, hrun]
    | compose => simp only [exec, execVfetch, hrun]
    | render g =>
      have hentry : ¬ atEntry s = true := by simpa [atEntry] using houtside g hrun
      simp only [exec, execVfetch, hrun, if_neg hentry]

/-- Settles O19: the bound check comes before any sample, on every line. -/
theorem vfetchFaultsBeyondTheRomLength : Obligations.VfetchFaultsBeyondTheRomLength := by
  intro s g a hrun hk hp hout
  have hfault : exec (.vfetch a) s
      = .next (renderFaulted s g (.romIndexOutOfRange g) s.walk.cursor a.toNat s.walk) := by
    rw [exec_vfetch_at_entry hrun hk hp, vfetch, if_pos hout, raise_of_render hrun]
  obtain ⟨hvalid, hdim⟩ := renderFaulted_dest s g (.romIndexOutOfRange g) s.walk.cursor a.toNat s.walk
  exact ⟨_, hfault, rfl, hvalid, hdim, rfl, rfl, Nat.mod_eq_of_lt (Nat.lt_trans a.isLt (by decide)),
    renderFaulted_frame ..⟩

/-- The channel loop of a `VFETCH` in range, then the cursor's advance, which forgets the channel. -/
theorem vfetch_of_drawSamples {s : State} {g : Group} {a : Word16} {raw : PerGroup (Buffer Byte)}
    (hin : a.toNat < (s.rom.get g).len.toNat)
    (h : drawSamples g a.toNat (cpg g) { s with walk := { s.walk with c := 0 } }
      = .next { s with raw := raw, walk := { s.walk with c := cpg g } }) :
    vfetch g a s = .next { s with raw := raw, walk := s.walk.advance s.cfg } := by
  rw [vfetch, if_neg (Nat.not_le_of_lt hin), h]
  rfl

/-- Settles O18: by whether the line is drawn. -/
theorem vfetchDrawsOneSamplePerChannel : Obligations.VfetchDrawsOneSamplePerChannel := by
  intro s g a hrun hk hp hvalid hrom hin
  rw [exec_vfetch_at_entry hrun hk hp]
  have hch : channelsHold s g a.toNat := fun c hc => readRom_of_inv hrom hvalid hc hin
  by_cases hd : s.walk.k + 1 < lineCount s.cfg
  · obtain ⟨m, hdraw, hnew, hold⟩ :=
      drawSamples_store (cpg g) { s with walk := { s.walk with c := 0 } } hch hd (Nat.zero_add _)
    refine ⟨_, vfetch_of_drawSamples hin hdraw, rfl, fun i => ⟨fun _ => ⟨?_, fun hi => ?_⟩, fun h => absurd hd h⟩, ?_⟩
    · rintro c hc rfl
      rw [PerGroup.get_set_same]
      exact hnew c (Nat.zero_le c) hc
    · rw [PerGroup.get_set_same]
      exact hold i fun c _ hc => hi c hc
    · rw [PerGroup.get_set_same]
  · have hdraw := drawSamples_skip (cpg g) { s with walk := { s.walk with c := 0 } } hch hd (Nat.zero_add _)
    refine ⟨_, vfetch_of_drawSamples hin hdraw, rfl, fun i => ⟨fun h => absurd h hd, fun _ => rfl⟩, ?_⟩
    rw [PerGroup.set_get]

/-! ### The plane of a completed `RENDER.g` (R122, R128, R129) -/

/-- The walk steps of a drawn line are below `drawnCount` (R130). -/
theorem position_lt_drawnCount {c : ConfigRegs} {f k p : Nat} (hf : f < 2) (hk : k + 1 < lineCount c)
    (hp : p < lineWidth c) : (2 * k + f) * lineWidth c + p < drawnCount c := by
  calc (2 * k + f) * lineWidth c + p < (2 * k + f + 1) * lineWidth c := by rw [Nat.add_one_mul (2 * k + f)]; omega
    _ ≤ drawnCount c := Nat.mul_le_mul_right _ (by omega)

/-- A row-major element is a channel of the walk step at its position. -/
theorem element_eq_step_channel (l n r p c : Nat) : r * (l * n) + (p * n + c) = n * (r * l + p) + c := by ring

/-- The elements of the drawn lines are those of the plane. -/
theorem element_lt_drawn {c : ConfigRegs} {g : Group} {f k p ch : Nat} (hf : f < 2) (hk : k + 1 < lineCount c)
    (hp : p < lineWidth c) (hch : ch < cpg g) :
    (2 * k + f) * (lineWidth c * cpg g) + (p * cpg g + ch) < cpg g * drawnCount c := by
  rw [element_eq_step_channel]
  calc cpg g * ((2 * k + f) * lineWidth c + p) + ch < cpg g * ((2 * k + f) * lineWidth c + p + 1) := by
        rw [Nat.mul_succ]; omega
    _ ≤ cpg g * drawnCount c := Nat.mul_le_mul_left _ (position_lt_drawnCount hf hk hp)

@[simp] theorem renderDone_raw_get (s : State) (g : Group) (m : Memory Byte) :
    (renderDone s g m).raw.get g
      = { valid := true, dim := packDim (planeWidth s.cfg g) (planeHeight s.cfg), mem := m } := PerGroup.get_set_same ..

/-- When a whole walk has been drawn the destination holds every element of the plane. -/
theorem drawnUpTo.full {s : State} {g : Group} {m : Memory Byte} (hm : drawnUpTo s g m (vseqRequired s.cfg)) :
    Memory.full m (cpg g * drawnCount s.cfg) := by
  rw [← Nat.min_eq_right (drawnCount_le s.cfg)]
  exact hm.1

/-- Line `k` of field `f` of a completed plane is its row `2k + f`, sample by sample (R128, R129). -/
theorem renderDone_read {s : State} {g : Group} {m : Memory Byte} (hlegal : geometryLegal s.cfg = true)
    (hm : drawnUpTo s g m (vseqRequired s.cfg)) {f k p c : Nat} (hf : f < 2) (hk : k + 1 < lineCount s.cfg)
    (hp : p < lineWidth s.cfg) (hc : c < cpg g) :
    ∃ v, ((renderDone s g m).raw.get g).read ((2 * k + f) * (lineWidth s.cfg * cpg g) + (p * cpg g + c)) = some v ∧
      sampleAt s g (f * fieldLen s.cfg + k * lineWidth s.cfg + p) c = some v := by
  have hlt := element_lt_drawn hf hk hp hc
  obtain ⟨v, hread⟩ := Memory.read_of_full hm.full hlt
  have hsample := hm.2 _ (by rwa [Nat.min_eq_right (drawnCount_le s.cfg)])
  refine ⟨v, ?_, ?_⟩
  · rw [renderDone_raw_get, Buffer.read_eq rfl (by rwa [dimSize_rendered hlegal])]
    exact hread
  · rw [hread, element_eq_step_channel, Nat.mul_add_div (cpg_pos g), Nat.div_eq_of_lt hc, Nat.add_zero, Nat.mul_add_mod,
      Nat.mod_eq_of_lt hc, walkIndex_of_position k hf hp] at hsample
    exact hsample.symm

/-- Settles O13: a `RENDER.g` that ends well has drawn the plane, and only field 1 lies below `FLEN`. -/
theorem rowsAlternateBetweenTheFields : Obligations.RowsAlternateBetweenTheFields := by
  intro g s t hinv _ hexec hidle _ hrefused f k p c hf hk hp hc
  obtain ⟨m, hm, rfl⟩ := render_endedWell hinv hexec ⟨hidle, hrefused⟩
  obtain ⟨hacc, -⟩ := accepted_of_not_refused hexec hrefused
  obtain ⟨-, hlegal, -⟩ := (rejection_eq_none_iff _ _).mp hacc
  refine ⟨renderDone_read hlegal hm hf hk hp hc, ?_⟩
  have hline : k * lineWidth s.cfg + p < fieldLen s.cfg := by
    calc k * lineWidth s.cfg + p < (k + 1) * lineWidth s.cfg := by rw [Nat.add_one_mul]; omega
      _ ≤ lineCount s.cfg * lineWidth s.cfg := Nat.mul_le_mul_right _ (by omega)
      _ = fieldLen s.cfg := Nat.mul_comm ..
  obtain rfl | rfl : f = 0 ∨ f = 1 := by omega
  · omega
  · omega

/-! ### When `RENDER.g` completes and when it faults (R123, R126, R132) -/

/-- `RENDER.g` is accepted where its registers are legal and both stores hold values (R216). -/
theorem render_accepted {s : State} {g : Group} (hrun : s.run = .idle) (hlegal : geometryLegal s.cfg = true)
    (hrom : (s.rom.get g).valid = true) (hvseq : s.vseq.valid = true) : rejection (.render g) s = none :=
  (rejection_eq_none_iff _ _).mpr ⟨hrun, hlegal, (inputsValid_render_iff g s).mpr ⟨hrom, hvseq⟩⟩

/-- A geometry that needs an entry has positions. -/
theorem lineWidth_pos_of_lt {c : ConfigRegs} {t : Nat} (ht : t < vseqRequired c) : 0 < lineWidth c := by
  refine Nat.pos_of_ne_zero fun h0 => ?_
  simp [vseqRequired, fieldLen, h0] at ht

/-- An entry in range has a sample in every channel of a bank that holds its channels. -/
theorem stepInRange_of_entryInRange {s : State} {g : Group} {t : Nat} (hbank : (s.rom.get g).Inv g)
    (hrom : (s.rom.get g).valid = true) (h : entryInRange s g (walkIndex s.cfg t) = true) :
    ∃ a, stepInRange s g t a ∧ channelsHold s g a.toNat := by
  unfold entryInRange at h
  split at h
  · next a hread =>
    have hlt := of_decide_eq_true h
    exact ⟨a, ⟨hread, hlt⟩, fun c hc => readRom_of_inv hbank hrom hc hlt⟩
  · cases h

/-- Settles O12: every walk step is in range, so the walk draws its plane. -/
theorem renderDrawsTheWholePlane : Obligations.RenderDrawsTheWholePlane := by
  intro g s hinv hrun hlegal hrom hvseq hlen hrange
  obtain ⟨-, hrominv, -⟩ := (State.buffersInv_iff s).mp hinv.2
  obtain ⟨m, hm, hdone⟩ := render_completes (render_accepted hrun hlegal hrom hvseq) hlen fun t ht =>
    stepInRange_of_entryInRange (hrominv g) hrom (hrange _ (walkIndex_lt (lineWidth_pos_of_lt ht) ht))
  refine ⟨renderDone s g m, (exec_render g s).trans hdone, ?_, ?_, ?_, ?_, fun r x hr hx => ?_, ?_⟩
  · rw [renderDone_raw_get]
  · rw [renderDone_raw_get]
    exact dimWidth_packDim (planeWidth_lt hlegal g)
  · rw [renderDone_raw_get]
    exact dimHeight_packDim (planeHeight_lt hlegal)
  · rw [renderDone_raw_get, dimSize_rendered hlegal]
    exact hm.full
  · have hpixel := renderDone_read hlegal hm (Nat.mod_lt r Nat.two_pos) (k := r / 2) (by omega)
      (Nat.div_lt_of_lt_mul (by rwa [Nat.mul_comm])) (Nat.mod_lt x (cpg_pos g))
    rwa [Nat.div_add_mod, Nat.div_add_mod'] at hpixel
  · rw [renderDone_raw_get, renderDone]

/-- Settles O14: the length check raises before any entry is read. -/
theorem renderFaultsOnAShortSequence : Obligations.RenderFaultsOnAShortSequence := by
  intro g s hrun hlegal hrom hvseq hshort
  obtain ⟨hindex, hvalue⟩ := renderFaulted_record s.vseq.len.isLt (vseqRequired_lt hlegal) s g (.seqTooShort g) s.walk
  have hfault := render_too_short (render_accepted hrun hlegal hrom hvseq) hshort
  obtain ⟨hvalid, hdim⟩ := renderFaulted_dest s g (.seqTooShort g) s.vseq.len.toNat (vseqRequired s.cfg) s.walk
  exact ⟨_, (exec_render g s).trans hfault, rfl, hvalid, hdim, rfl, hindex, hvalue, renderFaulted_frame ..⟩

/-- Settles O15: the walk goes on through the steps in range, and the next raises. -/
theorem renderReportsTheFirstEntryOutOfRange : Obligations.RenderReportsTheFirstEntryOutOfRange := by
  intro g s q a hinv hrun hlegal hrom hvseq hlen hq hbefore hread hout
  obtain ⟨-, hrominv, -⟩ := (State.buffersInv_iff s).mp hinv.2
  have hfault := render_out_of_range (render_accepted hrun hlegal hrom hvseq) hlen hq
    (fun t ht => stepInRange_of_entryInRange (hrominv g) hrom (hbefore t ht)) hread hout
  have hindex_lt := Nat.lt_trans (walkIndex_lt (lineWidth_pos_of_lt hq) hq) (vseqRequired_lt hlegal)
  obtain ⟨hindex, hvalue⟩ := renderFaulted_record hindex_lt (Nat.lt_trans a.isLt (by decide)) s g (.romIndexOutOfRange g)
    (walkAt s.cfg q)
  obtain ⟨hvalid, hdim⟩ := renderFaulted_dest s g (.romIndexOutOfRange g) (walkIndex s.cfg q) a.toNat (walkAt s.cfg q)
  exact ⟨_, (exec_render g s).trans hfault, rfl, hvalid, hdim, rfl, hindex, hvalue, renderFaulted_frame ..⟩

/-! ### The entries that are never read (R123) -/

/-- Store `v` answers every read of the walk as the store of `s` does. -/
def SameEntries (s : State) (v : VseqStore) : Prop :=
  ∀ i, i < vseqRequired s.cfg → readVseq { s with vseq := v } i = readVseq s i

section OtherStore

variable {s : State} {g : Group} {v : VseqStore}

theorem sameEntries_of_read (hs : s.vseq.valid = true) (hv : v.valid = true)
    (hslen : vseqRequired s.cfg ≤ s.vseq.len.toNat) (hvlen : vseqRequired s.cfg ≤ v.len.toNat)
    (hread : ∀ i, i < vseqRequired s.cfg → Memory.read v.mem i = Memory.read s.vseq.mem i) : SameEntries s v := by
  intro i hi
  rw [readVseq, readVseq, if_pos ⟨hv, hi.trans_le hvlen⟩, if_pos ⟨hs, hi.trans_le hslen⟩]
  exact hread i hi

/-- The acceptance of `RENDER.g` reads of the vector store only whether it holds a value (R216). -/
theorem rejection_render_with_vseq (hvalid : v.valid = s.vseq.valid) :
    rejection (.render g) { s with vseq := v } = rejection (.render g) s := by
  simp only [rejection, configLegal, inputsValid, hvalid]
  rfl

/-- The walk steps in range are the same. -/
theorem SameEntries.steps (h : SameEntries s v) {q : Nat} (hq : q ≤ vseqRequired s.cfg)
    (hsteps : ∀ t, t < q → ∃ a, stepInRange s g t a ∧ channelsHold s g a.toNat) :
    ∀ t, t < q → ∃ a, stepInRange { s with vseq := v } g t a ∧ channelsHold { s with vseq := v } g a.toNat := by
  intro t ht
  have htreq : t < vseqRequired s.cfg := by omega
  obtain ⟨a, ⟨hread, hlt⟩, hch⟩ := hsteps t ht
  exact ⟨a, ⟨(h _ (walkIndex_lt (lineWidth_pos_of_lt htreq) htreq)).trans hread, hlt⟩, hch⟩

/-- The samples drawn are the same. -/
theorem SameEntries.drawnUpTo_of_other (h : SameEntries s v) {m : Memory Byte} {n : Nat}
    (hm : drawnUpTo { s with vseq := v } g m n) : drawnUpTo s g m n := by
  obtain ⟨hfull, hval⟩ := hm
  refine ⟨hfull, fun i hi => (hval i hi).trans ?_⟩
  have hstep : i / cpg g < vseqRequired s.cfg := by
    calc i / cpg g < min n (drawnCount s.cfg) := Nat.div_lt_of_lt_mul hi
      _ ≤ vseqRequired s.cfg := (Nat.min_le_right ..).trans (drawnCount_le s.cfg)
  have hread := h _ (walkIndex_lt (lineWidth_pos_of_lt hstep) hstep)
  simp only [sampleAt, hread]
  rfl

/-- An accepted `RENDER.g` ends the same on the other store, completing or faulting. -/
theorem SameEntries.render_ends_alike (h : SameEntries s v) (hacc : rejection (.render g) s = none)
    (hacc' : rejection (.render g) { s with vseq := v } = none) (hvseq : s.vseq.Inv) (hrom : (s.rom.get g).Inv g)
    (hlen : vseqRequired s.cfg ≤ s.vseq.len.toNat) (hlen' : vseqRequired s.cfg ≤ v.len.toNat) :
    ∃ t, render g s = .next t ∧ render g { s with vseq := v } = .next { t with vseq := v } := by
  obtain ⟨hshort, -⟩ | ⟨-, q, a, hq, hsteps, hread, hout, hfault⟩ | ⟨-, hsteps, m, hm, hdone⟩ :=
    render_accepted_cases hacc hvseq hrom
  · omega
  · have hread' := (h _ (walkIndex_lt (lineWidth_pos_of_lt hq) hq)).trans hread
    exact ⟨_, hfault, render_out_of_range hacc' hlen' hq (h.steps hq.le hsteps) hread' hout⟩
  · obtain ⟨m', hm', hdone'⟩ := render_completes hacc' hlen' (h.steps le_rfl hsteps)
    obtain rfl := drawnUpTo_unique hm (h.drawnUpTo_of_other hm')
    exact ⟨_, hdone, hdone'⟩

end OtherStore

/-- Settles O17: both stores are refused alike, or walked alike. -/
theorem surplusVectorEntriesHaveNoEffect : Obligations.SurplusVectorEntriesHaveNoEffect := by
  intro g s v hinv _ _ hs hv hslen hvlen hread
  obtain ⟨hvseq, hrom, -⟩ := (State.buffersInv_iff s).mp hinv.2
  have hrejection : rejection (.render g) { s with vseq := v } = rejection (.render g) s :=
    rejection_render_with_vseq (hv.trans hs.symm)
  cases hacc : rejection (.render g) s with
  | some r => exact ⟨_, exec_job_refused hacc, exec_job_refused (hrejection.trans hacc)⟩
  | none =>
    rw [exec_render, exec_render]
    exact (sameEntries_of_read hs hv hslen hvlen hread).render_ends_alike hacc (hrejection.trans hacc) hvseq (hrom g) hslen
      hvlen

end Sys2Proof.Machine

/-! Proofs of the statements on the level normalizer (spec/41_level_normalizer.md): the two transforms as formulas, their
ends and their order, and the plane that a `NORM.g` writes or the overshoot that it reports. -/

namespace Sys2Proof.Machine

/-! ### The luma transform (R152 to R157) -/

section Luma

variable {low high : Byte}

/-- From `low` up the gain is one quotient of truncated differences: above the window its numerator is 0, which is the
clamp (R153, R154). -/
theorem saturateY_of_low_le (h : low.toNat < high.toNat) {raw : Byte} (hraw : low.toNat ≤ raw.toNat) :
    saturateY low high raw = some (BitVec.ofNat 8 ((high.toNat - raw.toNat) * 255 / (high.toNat - low.toNat))) := by
  obtain habove | hin := Nat.lt_or_ge high.toNat raw.toNat
  · rw [saturateY_above h.le habove, Nat.sub_eq_zero_of_le habove.le, Nat.zero_mul, Nat.zero_div]
  · exact saturateY_inside hraw hin

/-- What a result of the luma transform says: the code is not below the window, and the value is the quotient. -/
theorem saturateY_some (h : low.toNat < high.toNat) {raw v : Byte} (hv : saturateY low high raw = some v) :
    low.toNat ≤ raw.toNat ∧ v.toNat = (high.toNat - raw.toNat) * 255 / (high.toNat - low.toNat) := by
  obtain hbelow | hraw := Nat.lt_or_ge raw.toNat low.toNat
  · rw [saturateY_below h.le hbelow] at hv
    cases hv
  · rw [saturateY_of_low_le h hraw] at hv
    cases hv
    exact ⟨hraw, Nat.mod_eq_of_lt (Nat.lt_succ_of_le (saturateY_quotient_le hraw))⟩

theorem saturateY_low (h : low.toNat < high.toNat) : saturateY low high low = some 255#8 := by
  rw [saturateY_of_low_le h le_rfl, Nat.mul_div_cancel_left 255 (Nat.sub_pos_of_lt h)]

theorem saturateY_high (h : low.toNat < high.toNat) : saturateY low high high = some 0#8 := by
  rw [saturateY_of_low_le h h.le, Nat.sub_self, Nat.zero_mul, Nat.zero_div]

end Luma

/-- Settles O21: below, above and inside the window, and its two ends. -/
theorem lumaTransformIsTheStatedFormula : Obligations.LumaTransformIsTheStatedFormula := by
  intro low high raw h
  refine ⟨saturateY_below h.le, saturateY_above h.le, fun hlow hhigh => ?_, saturateY_low h, saturateY_high h⟩
  have hv := saturateY_inside hlow hhigh
  exact ⟨_, hv, (saturateY_some h hv).2⟩

/-- Settles O22: the numerator of the quotient falls as the code rises. -/
theorem lumaTransformIsNonIncreasing : Obligations.LumaTransformIsNonIncreasing := by
  intro low high raw1 raw2 v1 v2 h hlt h1 h2
  obtain ⟨-, hv1⟩ := saturateY_some h h1
  obtain ⟨-, hv2⟩ := saturateY_some h h2
  rw [hv1, hv2]
  exact Nat.div_le_div_right (Nat.mul_le_mul_right 255 (by omega))

/-- Settles O25: at the window 41, 181 the gain 255 / 140 is 51 / 28. -/
theorem lumaTableAtTheResetWindow : Obligations.LumaTableAtTheResetWindow := by
  intro raw
  change saturateY 41#8 181#8 raw = _
  have hwindow : (41#8 : Byte).toNat < (181#8 : Byte).toNat := by decide
  split_ifs with hbelow hin
  · exact saturateY_below hwindow.le (Nat.lt_succ_of_le hbelow)
  · rw [saturateY_of_low_le hwindow (Nat.lt_of_not_le hbelow)]
    have hgain : (181 - raw.toNat) * 255 / 140 = (181 - raw.toNat) * 51 / 28 := by omega
    exact congrArg (fun n => some (BitVec.ofNat 8 n)) hgain
  · exact saturateY_above hwindow.le (Nat.lt_of_not_le hin)

/-! ### The chroma transform (R158 to R162) -/

section Chroma

variable {headroom range : Byte}

/-- The overshoot test, cleared of the division (R161). -/
theorem saturateChroma_eq_none_iff (h : headroom.toNat ≤ 128) (raw : Byte) :
    saturateChroma headroom range raw = none ↔
      (128 - headroom.toNat : Int) * range.toNat < |(128 - raw.toNat : Int) * (128 - headroom.toNat)| := by
  rw [saturateChroma_eq _ _ _ h]
  simp only [ite_eq_left_iff, reduceCtorEq, imp_false, not_not]

/-- The same test on the exact rescaled deviation. -/
theorem amp_lt_abs_scaled_iff (hr : 1 ≤ range.toNat) (raw : Byte) :
    (128 : ℚ) - headroom.toNat < |((128 : ℚ) - raw.toNat) * (128 - headroom.toNat) / range.toNat| ↔
      (128 - headroom.toNat : Int) * range.toNat < |(128 - raw.toNat : Int) * (128 - headroom.toNat)| := by
  have hpos : (0 : ℚ) < range.toNat := by exact_mod_cast hr
  rw [abs_div, abs_of_pos hpos, lt_div_iff₀ hpos]
  exact_mod_cast Iff.rfl

/-- The floor of the exact re-centred value is the quotient of the model (R160). -/
theorem floor_recentred (hr : 1 ≤ range.toNat) (raw : Byte) :
    ⌊(128 : ℚ) + ((128 : ℚ) - raw.toNat) * (128 - headroom.toNat) / range.toNat⌋
      = (128 * range.toNat + (128 - raw.toNat) * (128 - headroom.toNat) : Int) / range.toNat := by
  have hne : (range.toNat : ℚ) ≠ 0 := by exact_mod_cast (by omega : range.toNat ≠ 0)
  rw [← Rat.floor_intCast_div_natCast]
  congr 1
  push_cast
  rw [add_div, mul_div_cancel_right₀ _ hne]

/-- Neutral chroma has no deviation (R162 a). -/
theorem saturateChroma_neutral (h : headroom.toNat ≤ 128) (hr : 1 ≤ range.toNat) :
    saturateChroma headroom range 128#8 = some 128#8 := by
  have hdev : (128 - (128#8 : Byte).toNat : Int) * (128 - headroom.toNat) = 0 := zero_mul _
  have hamp : (0 : Int) ≤ (128 - headroom.toNat) * range.toNat := mul_nonneg (by omega) (by omega)
  rw [saturateChroma_eq _ _ _ h, hdev, abs_zero, if_neg hamp.not_gt, add_zero, Int.mul_ediv_cancel _ (by omega)]
  rfl

/-- A code that does not overshoot keeps the headroom (R162 b). -/
theorem saturateChroma_within_headroom (h1 : 1 ≤ headroom.toNat) (h : headroom.toNat ≤ 128) (hr : 1 ≤ range.toNat)
    {raw v : Byte} (hv : saturateChroma headroom range raw = some v) :
    headroom.toNat ≤ v.toNat ∧ v.toNat ≤ 256 - headroom.toNat := by
  obtain ⟨hle, hval⟩ := saturateChroma_some h1 h hr hv
  have hbounds := chroma_quotient_bounds hr hle
  omega

/-- Of two codes that do not overshoot the greater has the lesser result (R162 c). -/
theorem saturateChroma_antitone (h1 : 1 ≤ headroom.toNat) (h : headroom.toNat ≤ 128) (hr : 1 ≤ range.toNat)
    {raw1 raw2 v1 v2 : Byte} (hle : raw1.toNat ≤ raw2.toNat) (hv1 : saturateChroma headroom range raw1 = some v1)
    (hv2 : saturateChroma headroom range raw2 = some v2) : v2.toNat ≤ v1.toNat := by
  obtain ⟨-, hval1⟩ := saturateChroma_some h1 h hr hv1
  obtain ⟨-, hval2⟩ := saturateChroma_some h1 h hr hv2
  have hdev : (128 - raw2.toNat : Int) * (128 - headroom.toNat) ≤ (128 - raw1.toNat) * (128 - headroom.toNat) :=
    mul_le_mul_of_nonneg_right (by omega) (by omega)
  have hquot := Int.ediv_le_ediv (by omega : (0 : Int) < range.toNat) (add_le_add_right hdev (128 * range.toNat))
  omega

end Chroma

/-- Settles O23: the exact rationals are the model's integers divided by the range. -/
theorem chromaTransformIsTheStatedFormula : Obligations.ChromaTransformIsTheStatedFormula := by
  intro headroom range raw h1 h hr scaled
  have hnone : saturateChroma headroom range raw = none ↔ (128 : ℚ) - headroom.toNat < |scaled| :=
    (saturateChroma_eq_none_iff h raw).trans (amp_lt_abs_scaled_iff hr raw).symm
  refine ⟨hnone, fun hle => ?_⟩
  obtain ⟨v, hv⟩ := Option.ne_none_iff_exists'.mp (mt hnone.mp hle.not_gt)
  obtain ⟨-, hval⟩ := saturateChroma_some h1 h hr hv
  exact ⟨v, hv, hval.trans (floor_recentred hr raw).symm⟩

/-- Settles O24: the three properties of R162, each by its lemma. -/
theorem chromaTransformKeepsNeutralRangeAndOrder : Obligations.ChromaTransformKeepsNeutralRangeAndOrder :=
  fun _ _ h1 h hr => ⟨saturateChroma_neutral h hr, fun _ _ => saturateChroma_within_headroom h1 h hr,
    fun _ _ _ _ hlt => saturateChroma_antitone h1 h hr hlt.le⟩

/-- Settles O30: the ends of the window are 255 and 0, and with neutral chroma they compose to white and black. -/
theorem brightestRawLumaComposesToWhite : Obligations.BrightestRawLumaComposesToWhite :=
  fun _ _ _ _ _ hwindow _ h hry hby =>
    ⟨255#8, 0#8, 128#8, 128#8, saturateY_low hwindow, saturateY_high hwindow, saturateChroma_neutral h hby,
      saturateChroma_neutral h hry, by decide, by decide⟩

/-! ### The plane of `NORM.g` (R150, R163 to R166) -/

/-- `NORM.g` is accepted where its registers are legal and its source holds a value (R216). -/
theorem norm_accepted {s : State} {g : Group} (hrun : s.run = .idle) (hlegal : configLegal (.norm g) s.cfg = true)
    (hraw : (s.raw.get g).valid = true) : rejection (.norm g) s = none :=
  (rejection_eq_none_iff _ _).mpr ⟨hrun, hlegal, hraw⟩

/-- A pixel in range is one that the transform maps to a value. -/
theorem pixelInRange_iff (s : State) (g : Group) (n : Nat) :
    pixelInRange s g n = true ↔ ∃ w, pixelMapsTo s g n w := by
  unfold pixelInRange pixelMapsTo
  cases (s.raw.get g).read n with
  | none => simp
  | some v => simp [Option.isSome_iff_exists]

@[simp] theorem normDone_nrm_get (s : State) (g : Group) (m : Memory Byte) :
    (normDone s g m).nrm.get g = { valid := true, dim := (s.raw.get g).dim, mem := m } := PerGroup.get_set_same ..

/-- Settles O26: every pixel maps to a value, so the loop writes the whole plane. -/
theorem normTransformsEveryPixel : Obligations.NormTransformsEveryPixel := by
  intro g s _ hrun hlegal hraw hrange
  obtain ⟨m, hfull, hval, hdone⟩ := norm_completes (norm_accepted hrun hlegal hraw) fun n hn =>
    (pixelInRange_iff s g n).mp (hrange n hn)
  refine ⟨normDone s g m, (exec_norm g s).trans hdone, ?_⟩
  rw [normDone_nrm_get]
  refine ⟨rfl, rfl, hfull, fun n hn => ?_, rfl⟩
  obtain ⟨v, ⟨raw, hread, htransform⟩, hwritten⟩ := hval n hn
  refine ⟨raw, v, hread, ?_, (Buffer.read_eq (b := { valid := true, dim := _, mem := m }) rfl hn).trans hwritten⟩
  cases g <;> exact htransform

/-! ### The overshoot of `NORM.g` (R155, R161, R205) -/

@[simp] theorem normFaulted_nrm_get (s : State) (g : Group) (i : Nat) (v : Byte) :
    (normFaulted s g i v).nrm.get g = Buffer.empty := PerGroup.get_set_same ..

/-- The elements of a plane are counted by its two 16-bit fields, so an element index fits `FAULT_INDEX` (R32, R33). -/
theorem dimSize_lt (d : BitVec 32) : dimSize d < 2 ^ 32 :=
  Nat.mul_lt_mul'' (c := 2 ^ 16) (d := 2 ^ 16) (BitVec.isLt _) (BitVec.isLt _)

/-- Settles O27: the pixels before `q` map to values, and the next raises. -/
theorem normReportsTheFirstOvershoot : Obligations.NormReportsTheFirstOvershoot := by
  intro g s q raw _ hrun hlegal hraw hq hbefore hread hover
  have hfault := norm_overshoots (norm_accepted hrun hlegal hraw) hq
    (fun n hn => (pixelInRange_iff s g n).mp (hbefore n hn)) hread hover
  refine ⟨normFaulted s g q raw, (exec_norm g s).trans hfault, rfl, ?_⟩
  rw [normFaulted_nrm_get]
  refine ⟨rfl, rfl, ?_, Nat.mod_eq_of_lt (hq.trans (dimSize_lt _)), Nat.mod_eq_of_lt (raw.isLt.trans (by decide)), rfl⟩
  cases g <;> rfl

end Sys2Proof.Machine

/-! Proofs of the statements on the compositor (spec/42_compositor.md): the exact colour matrix and its clamp, its grey axis
and its order, and the image that a `COMPOSE` writes or the geometry fault that it reports. -/

namespace Sys2Proof.Machine

/-! ### The colour matrix and the clamp (R182 to R184) -/

/-- The quotient that R is clamped from is the matrix row of R182. -/
theorem rNum_div_rDen (y cr : Byte) :
    (rNum y cr : ℚ) / (rDen : ℤ) = y.toNat + 1402 / 1000 * ((cr.toNat : ℚ) - 128) := by
  simp only [rNum, rDen, deviation, Config.neutral]
  push_cast
  ring

/-- The quotient that G is clamped from is the matrix row of R182, whose coefficients share the denominator 587. -/
theorem gNum_div_gDen (y cb cr : Byte) :
    (gNum y cb cr : ℚ) / (gDen : ℤ) =
      y.toNat - 1772 / 1000 * ((114 / 1000) / (587 / 1000)) * ((cb.toNat : ℚ) - 128)
        - 1402 / 1000 * ((299 / 1000) / (587 / 1000)) * ((cr.toNat : ℚ) - 128) := by
  simp only [gNum, gDen, deviation, Config.neutral]
  push_cast
  ring

/-- The quotient that B is clamped from is the matrix row of R182. -/
theorem bNum_div_bDen (y cb : Byte) :
    (bNum y cb : ℚ) / (bDen : ℤ) = y.toNat + 1772 / 1000 * ((cb.toNat : ℚ) - 128) := by
  simp only [bNum, bDen, deviation, Config.neutral]
  push_cast
  ring

theorem rDen_pos : 0 < rDen := by decide
theorem gDen_pos : 0 < gDen := by decide
theorem bDen_pos : 0 < bDen := by decide

/-- Settles O28: each channel is the clamped quotient of its numerator, and the quotient is its matrix row. -/
theorem pixelIsTheClampedExactMatrix : Obligations.PixelIsTheClampedExactMatrix := by
  intro y cb cr Y db dr R G B
  refine ⟨?_, ?_, ?_⟩
  · rw [composePixel, clampTrunc_floor _ rDen_pos, rNum_div_rDen]
  · rw [composePixel, clampTrunc_floor _ gDen_pos, gNum_div_gDen]
  · rw [composePixel, clampTrunc_floor _ bDen_pos, bNum_div_bDen]

/-! ### The grey axis and the order in luma (R188) -/

@[simp] theorem deviation_neutral : deviation 128#8 = 0 := rfl

/-- With neutral chroma every numerator is its denominator times `Y`, so every channel is `Y` (R188 a). -/
theorem composePixel_neutral (y : Byte) : composePixel y 128#8 128#8 = { r := y, g := y, b := y } := by
  have hr : rNum y 128#8 = rDen * y.toNat := by simp [rNum, rDen]
  have hg : gNum y 128#8 128#8 = gDen * y.toNat := by simp [gNum, gDen]
  have hb : bNum y 128#8 = bDen * y.toNat := by simp [bNum, bDen]
  rw [composePixel, hr, hg, hb, clampTrunc_exact y rDen_pos, clampTrunc_exact y gDen_pos, clampTrunc_exact y bDen_pos]

/-- Settles O29: `Y` enters every numerator with a positive coefficient, `Cb` not that of R, `Cr` not that of B. -/
theorem pixelGreyAxisAndMonotoneInLuma : Obligations.PixelGreyAxisAndMonotoneInLuma := by
  refine ⟨composePixel_neutral, fun _ _ _ _ => rfl, fun _ _ _ _ => rfl, fun y y' cb cr hle => ⟨?_, ?_, ?_⟩⟩
  · exact clampTrunc_mono rDen_pos (by unfold rNum; omega)
  · exact clampTrunc_mono gDen_pos (by unfold gNum; omega)
  · exact clampTrunc_mono bDen_pos (by unfold bNum; omega)

/-! ### The image of `COMPOSE` (R180, R187, R189) -/

/-- `COMPOSE` is accepted where its three sources hold values: it reads no register that could be illegal (R216). -/
theorem compose_accepted {s : State} (hrun : s.run = .idle)
    (hvalid : s.aln.y.valid = true ∧ s.aln.cb.valid = true ∧ s.aln.cr.valid = true) : rejection .compose s = none :=
  (rejection_eq_none_iff _ _).mpr ⟨hrun, rfl, (inputsValid_compose_iff s).mpr hvalid⟩

/-- A dimension register is its two fields. -/
theorem dim_eq_iff (d e : BitVec 32) : d = e ↔ dimWidth d = dimWidth e ∧ dimHeight d = dimHeight e := by
  refine ⟨fun h => ⟨congrArg dimWidth h, congrArg dimHeight h⟩, fun ⟨hw, hh⟩ => BitVec.eq_of_toNat_eq ?_⟩
  simp only [dimWidth, dimHeight, BitVec.extractLsb'_toNat, Nat.shiftRight_eq_div_pow] at hw hh
  omega

/-- The geometry check passes exactly when the three planes have the same dimension register (R181). -/
theorem composeCheck_eq_none_iff_dim (s : State) :
    composeCheck s = none ↔ s.aln.cb.dim = s.aln.y.dim ∧ s.aln.cr.dim = s.aln.y.dim := by
  rw [composeCheck_eq_none_iff, dim_eq_iff, dim_eq_iff, and_assoc]

/-- Settles O31: the check passes, and every pixel of the image is composed from the elements of its own index. -/
theorem composeCombinesTheAlignedPlanes : Obligations.ComposeCombinesTheAlignedPlanes := by
  intro s hinv hrun hy hcb hcr hdimb hdimr
  obtain ⟨-, -, -, -, haln, -⟩ := hinv.2
  obtain ⟨m, hfull, hval, hdone⟩ := compose_completes (compose_accepted hrun ⟨hy, hcb, hcr⟩)
    ((composeCheck_eq_none_iff_dim s).mpr ⟨hdimb, hdimr⟩) haln
  refine ⟨composeDone s m, hdone, rfl, rfl, hfull, fun n hn => ?_, rfl⟩
  obtain ⟨_, ⟨y, cb, cr, hready, hreadb, hreadr, rfl⟩, hwritten⟩ := hval n hn
  exact ⟨y, cb, cr, hready, hreadb, hreadr, (Buffer.read_eq (b := (composeDone s m).rgb) rfl hn).trans hwritten⟩

/-! ### The geometry fault of `COMPOSE` (R181, R205) -/

/-- The record of a geometry fault: the cause word, and the two dimension fields, which fit their registers (R32). -/
theorem composeFaulted_record (s : State) (k : FaultKind) (i v : BitVec 16) :
    (composeFaulted s k i.toNat v.toNat).faultRec.cause = k.word ∧
      (composeFaulted s k i.toNat v.toNat).faultRec.index.toNat = i.toNat ∧
      (composeFaulted s k i.toNat v.toNat).faultRec.value.toNat = v.toNat :=
  ⟨rfl, Nat.mod_eq_of_lt (i.isLt.trans (by decide)), Nat.mod_eq_of_lt (v.isLt.trans (by decide))⟩

/-- Settles O32: unequal dimensions fail one of the four tests, and the first that fails gives the record. -/
theorem composeFaultsOnUnequalDimensions : Obligations.ComposeFaultsOnUnequalDimensions := by
  intro s hrun hy hcb hcr hne
  obtain ⟨⟨k, i, v⟩, hcheck⟩ := Option.ne_none_iff_exists'.mp (mt (composeCheck_eq_none_iff_dim s).mp hne)
  have hfault := compose_faults (compose_accepted hrun ⟨hy, hcb, hcr⟩) hcheck
  refine ⟨composeFaulted s k i v, hfault, rfl, rfl, rfl, ?_, rfl⟩
  simp only [composeCheck] at hcheck
  split_ifs at hcheck ⊢ <;> cases hcheck
  · exact composeFaulted_record s (.widthMismatch .bY) _ _
  · exact composeFaulted_record s (.heightMismatch .bY) _ _
  · exact composeFaulted_record s (.widthMismatch .ry) _ _
  · exact composeFaulted_record s (.heightMismatch .ry) _ _

end Sys2Proof.Machine

/-! Proofs of the statements on the exceptions (spec/60_exceptions.md): the reset that every state obeys, what a refusal
records, and what a fault raised while a command runs leaves behind. -/

namespace Sys2Proof.Machine

/-! ### Reset (R209, R240) -/

/-- A `Reset` at the head of the inbox is taken from it and served, whatever command runs (R240). -/
theorem step_reset {s : State} {rest : List Transaction} (h : s.inbox = .reset :: rest) :
    step s = .next (applyReset { s with inbox := rest }) := by
  have hpending : resetPending s = true := (resetPending_cons_iff s).mpr ⟨rest, h⟩
  have hfetch : fetch s = .answer (.next (applyReset { s with inbox := rest })) := by
    rw [fetch, if_pos hpending, fetchHost, h]
    rfl
  rw [step, hfetch]

/-- Settles O5: the step serves the `Reset`, which keeps the mailboxes alone. -/
theorem resetWorksFromEveryState : Obligations.ResetWorksFromEveryState :=
  fun _ _ hin => step_reset hin

/-! ### Refusing a command (R215) -/

/-- Settles O10: the new reason is the refusal's own where none is recorded, and the recorded one otherwise. -/
theorem refusalChangesOnlyTheRefusalRecord : Obligations.RefusalChangesOnlyTheRefusalRecord := by
  intro r s
  refine ⟨rfl, fun hnone => ?_, fun hsome => ?_⟩
  · rw [refuse_refuseReason, if_pos hnone]
  · rw [refuse_refuseReason, if_neg hsome]

/-! ### Raising a fault while a command runs (R206) -/

/-- A fault raised while `j` runs empties the destination of `j`, writes its record and stops. -/
theorem raise_of_busy {j : Job} {s : State} (hrun : s.run = .busy j) (k : FaultKind) (i v : Nat) :
    raise k i v s = { clearDest j s with
      run := .fault
      faultRec := { cause := k.word, index := BitVec.ofNat 32 i, value := BitVec.ofNat 32 v } } := by
  rw [raise, dropDest_busy hrun]

/-- Settles O33: by the running command, whose destination is the one buffer that `raise` empties. -/
theorem raiseWritesTheRecordAndStops : Obligations.RaiseWritesTheRecordAndStops := by
  intro k i v j s hrun
  refine ⟨raise_run .., raise_faultRec .., ?_⟩
  rw [raise_of_busy hrun]
  cases j with
  | render g =>
    simp only [clearDest, PerGroup.get_set_same]
    exact ⟨rfl, rfl, trivial⟩
  | norm g =>
    simp only [clearDest, PerGroup.get_set_same]
    exact ⟨rfl, rfl, trivial⟩
  | compose => exact ⟨rfl, rfl, rfl⟩

end Sys2Proof.Machine

/-! Proofs of the statements on reset and hazards (spec/70_reset_and_hazards.md): a block that runs no command waits for the
host. -/

namespace Sys2Proof.Machine

/-! ### Waiting for the host (R241) -/

/-- Settles O6: the fetch of a block that runs no command goes to the host, whose inbox is empty, so the block waits. -/
theorem withoutTheHostNothingHappens : Obligations.WithoutTheHostNothingHappens :=
  fun _ hinbox hbusy => step_waits hinbox hbusy

end Sys2Proof.Machine
